-- ==== Sys2Proof/Word.lean ====
section
/-! DEFINITION. The word types of CORE.

Every stored quantity of CORE is an unsigned integer whose width is an implementation parameter
(`spec/00_scope.md` R6, R7, R11), and every rule's arithmetic is over unbounded integers, since no
width is ever exceeded (R7, R12 item a). Samples, indices, coefficient codes and working values are
therefore natural numbers with range invariants (log 2). Only the sequencer word has one fixed width
and is a bit vector. -/

namespace Sys2Proof

/-- The sequencer word `{S_REV, PHASE[3:0]}` of format Q (R85). -/
abbrev SeqWord := BitVec 5

end Sys2Proof
end

