-- ==== Sys2Proof/Config.lean ====
section
/-! DEFINITION. The implementation parameters of CORE and the free values.

`Config` holds the parameters the spec leaves open (`spec/00_scope.md` R6) and the choice between the
two readings of an invocation that R9 allows. A `Config` is plain data carried in the state and never
changed, so that a statement can speak of every legal configuration (R247 item f; log 1). -/

namespace Sys2Proof

/-- The open parameters of R6, and which reading of R9 the machine runs. -/
structure Config where
  /-- `CAPACITY`, written `N`: the number of Delay Buffer entries. -/
  capacity : Nat
  /-- `SAMPLE_W`: the bits of one sample. -/
  sampleW : Nat
  /-- `COEF_FRAC`: the fraction bits of the two coefficient codes. -/
  coefFrac : Nat
  /-- `SHIM_BITS`: how many least-significant bits of ACC the shimmer stage inspects. -/
  shimBits : Nat
  /-- `SHIM_THRESH`: the value those bits must exceed for a positive sign. -/
  shimThresh : Nat
  /-- `echoScale`, as plain data: the arguments in `[0, FS]` at which it differs from the default
  `floor(2t/5)`, each with its value there, so that every function of R6 is some table (log 5). -/
  echoTable : List (Nat × Nat)
  /-- `DATA_W`: the bits of a command word's data field. -/
  dataW : Nat
  /-- The reading of R9: `false`, one invocation is one transition; `true`, one transition is one
  micro-step (DESIGN CHOICE, log 6). -/
  stepped : Bool
  deriving DecidableEq, Repr

/-- The defaults of R6, in the atomic reading (DESIGN CHOICE, log 1 and log 6). -/
def Config.defaults : Config :=
  { capacity := 48000, sampleW := 12, coefFrac := 8, shimBits := 4, shimThresh := 7, echoTable := [],
    dataW := 16, stepped := false }

/-- `FULL_SCALE`, written `FS`: the largest sample (R6). -/
def Config.fs (c : Config) : Nat := 2 ^ c.sampleW - 1

/-- `ONE`: the code of coefficient value 1.0 (R6). -/
def Config.one (c : Config) : Nat := 2 ^ c.coefFrac

/-- `MAX_REPEATS` (R5). -/
def Config.maxRepeats : Nat := 5

/-- `CMD_W`: the width of a command word (R82). -/
def Config.cmdW (c : Config) : Nat := 3 + c.dataW

/-- `IDX_W = ceil(log2(N))` for `N >= 2` (R7). -/
def Config.idxW (c : Config) : Nat := Nat.log2 (c.capacity - 1) + 1

/-- `ACC_W` (R7). -/
def Config.accW (c : Config) : Nat := c.sampleW + 2

/-- `SH_W` (R7). -/
def Config.shW (c : Config) : Nat := c.sampleW + 3

/-- `MIX_W` (R7). -/
def Config.mixW (c : Config) : Nat := c.sampleW + 3 + c.coefFrac

/-- The free contents of the Delay Buffer after reset (R22, U5): the value drawn at reset number
`draw` for entry `i`, reduced into `[0, FS]` where it is read. It has no body: nothing can be proved
about its values (log 3). -/
opaque Config.freeEntry (draw i : Nat) : Nat

/-- The free input of an acquisition to which no transaction gives a sample (R13, R112): the value for output
number `n` after reset number `draw`, reduced into `[0, FS]` where it is read. It has no body (log 13). -/
opaque Config.freeInput (draw n : Nat) : Nat

end Sys2Proof
end

