-- ==== Sys2Proof/Syntax.lean ====
section
/-! DEFINITION. The operations of CORE (`spec/30_encoding.md` R80), one constructor of `Instr` for each row
of `spec/opcode_table.json`; the sequencer phases; the words the ports carry; the script notation. -/

namespace Sys2Proof

/-- The operation set (R80): seven port operations, the two classes of reserved command words, and the
eleven micro-steps of one invocation. -/
inductive Instr where
  /-- TICK: one invocation with input sample `x` (R110). -/
  | tick (x : Nat)
  /-- WR.DELAY (R175). -/
  | wrDelay (v : Nat)
  /-- WR.REV (R176). -/
  | wrRev (v : Nat)
  /-- WR.REP (R177). -/
  | wrRep (v : Nat)
  /-- WR.WET (R178). -/
  | wrWet (v : Nat)
  /-- WR.SHIM (R179). -/
  | wrShim (v : Nat)
  /-- RESERVED.SEL5: a command word with register number 5 (R90). -/
  | reservedSel5 (data : Nat)
  /-- RESERVED.SEL6_7: a command word with register number 6 (`low = false`) or 7 (`low = true`) (R90). -/
  | reservedSel67 (low : Bool) (data : Nat)
  /-- RESET (R185). -/
  | reset
  /-- LATCH (R111). -/
  | latch
  /-- ACQ (R112). -/
  | acq
  /-- STORE (R113). -/
  | store
  /-- RDIDX.F (R114). -/
  | rdidxF
  /-- RDIDX.R (R115). -/
  | rdidxR
  /-- SEED (R140). -/
  | seed
  /-- TAP (R141). -/
  | tap
  /-- SHIM (R150). -/
  | shim
  /-- MIX (R160). -/
  | mix
  /-- EMIT (R162). -/
  | emit
  /-- ADV (R118). -/
  | adv
  deriving DecidableEq, Repr

/-- The sequencer phases, codes 0 to 10 (R40). Codes 11 to 15 are unrepresentable (R92). -/
inductive Phase where
  | idle | latch | acq | store | rdidx | seed | tap | shim | mix | emit | adv
  deriving DecidableEq, Repr

/-- The code of a phase (R40). -/
def Phase.code : Phase → Nat
  | .idle => 0
  | .latch => 1
  | .acq => 2
  | .store => 3
  | .rdidx => 4
  | .seed => 5
  | .tap => 6
  | .shim => 7
  | .mix => 8
  | .emit => 9
  | .adv => 10

/-- What a port or the sequencer presents: the port tells the format (R97). -/
inductive Transaction where
  /-- Format S: the word on the sample port (R81). -/
  | sample (w : Nat)
  /-- Format C: the word on the control port (R82). -/
  | command (w : Nat)
  /-- Format Z: the level of the line `rst` (R84). -/
  | resetLine (asserted : Bool)
  /-- Format Q: the sequencer word (R85). -/
  | sequencer (q : SeqWord)
  deriving DecidableEq, Repr

/-- One line of a stimulus script (R95, R96). -/
inductive ScriptLine where
  /-- `RESET`. -/
  | reset
  /-- `WR.DELAY v`. -/
  | wrDelay (v : Nat)
  /-- `WR.REV v`. -/
  | wrRev (v : Nat)
  /-- `WR.REP v`. -/
  | wrRep (v : Nat)
  /-- `WR.WET v`. -/
  | wrWet (v : Nat)
  /-- `WR.SHIM v`. -/
  | wrShim (v : Nat)
  /-- `TICK x`, with the stated output of `TICK x -> y` where there is one. -/
  | tick (x : Nat) (expected : Option Nat)
  /-- `PSET d, rev, n, w, s`. -/
  | pset (d rev n w s : Nat)
  /-- `TICKS x1, .., xk`. -/
  | ticks (xs : List Nat)
  /-- `TICKS x1, .., xk -> y1, .., yk`, each input beside its stated output. -/
  | ticksTo (xys : List (Nat × Nat))
  deriving DecidableEq, Repr

end Sys2Proof
end

