-- ==== Sys2Proof/WellFormed.lean ====
section
/-! DEFINITION. Which instructions a port can carry: every operand fits its field (`spec/30_encoding.md` R81,
R82). Whether a parameter value is legal is not asked here: an illegal value is encodable and is refused by
its meaning (R83, R91). -/

namespace Sys2Proof

/-- The operands of an instruction fit the fields of its encoding. -/
def WellFormed (c : Config) : Instr → Bool
  | .tick x => decide (x < 2 ^ c.sampleW)
  | .wrDelay v => decide (v < 2 ^ c.dataW)
  | .wrRev v => decide (v < 2 ^ c.dataW)
  | .wrRep v => decide (v < 2 ^ c.dataW)
  | .wrWet v => decide (v < 2 ^ c.dataW)
  | .wrShim v => decide (v < 2 ^ c.dataW)
  | .reservedSel5 data => decide (data < 2 ^ c.dataW)
  | .reservedSel67 _ data => decide (data < 2 ^ c.dataW)
  | .reset => true
  | .latch => true
  | .acq => true
  | .store => true
  | .rdidxF => true
  | .rdidxR => true
  | .seed => true
  | .tap => true
  | .shim => true
  | .mix => true
  | .emit => true
  | .adv => true

end Sys2Proof
end

