-- ==== Sys2Proof/Decode.lean ====
section
/-! DEFINITION. Decoding and encoding (`spec/30_encoding.md` R81 to R92, R97).

The port tells the format (R97). A sample word is a TICK; an asserted reset line is RESET; a command word is
selected by `sel = word[DATA_W+2:DATA_W]` alone (R82) and its data is range-checked by its meaning (R83, R91);
a sequencer word `{S_REV, PHASE}` selects a micro-step (R85, R88). -/

namespace Sys2Proof

/-- Why a word has no instruction. None of these words can occur: no port is wide enough for the first two
(R81, R82), an unasserted line and phase 0 name no operation (R84, R85), and phases 11 to 15 are never
produced (R92). -/
inductive Reject where
  /-- A sample word wider than `SAMPLE_W` bits (R81). -/
  | sampleTooWide (w : Nat)
  /-- A command word wider than `CMD_W` bits (R82). -/
  | commandTooWide (w : Nat)
  /-- The reset line is not asserted (R84). -/
  | resetNotAsserted
  /-- PHASE 0 decodes to no micro-step (R85, R92). -/
  | idlePhase
  /-- A phase code 11 to 15 (R92). -/
  | unreachablePhase (code : Nat)
  deriving DecidableEq, Repr

/-- The `sel` field of a command word, `word[DATA_W+2:DATA_W]` (R82). -/
def commandSel (c : Config) (w : Nat) : Nat := w / 2 ^ c.dataW % 8

/-- The `data` field of a command word, read as one unsigned integer (R82, R83). -/
def commandData (c : Config) (w : Nat) : Nat := w % 2 ^ c.dataW

/-- The operation a register number selects (R82, R87, R90). -/
def commandInstr (sel data : Nat) : Instr :=
  match sel with
  | 0 => .wrDelay data
  | 1 => .wrRev data
  | 2 => .wrRep data
  | 3 => .wrWet data
  | 4 => .wrShim data
  | 5 => .reservedSel5 data
  | 6 => .reservedSel67 false data
  | _ => .reservedSel67 true data

/-- The phase a code names (R40); none for 11 to 15 (R92). -/
def phaseOfCode : Nat → Option Phase
  | 0 => some .idle
  | 1 => some .latch
  | 2 => some .acq
  | 3 => some .store
  | 4 => some .rdidx
  | 5 => some .seed
  | 6 => some .tap
  | 7 => some .shim
  | 8 => some .mix
  | 9 => some .emit
  | 10 => some .adv
  | _ => none

/-- The micro-step of a phase; the two RDIDX forms are told apart by `S_REV` (R85). -/
def microStep (rev : Bool) : Phase → Option Instr
  | .idle => none
  | .latch => some .latch
  | .acq => some .acq
  | .store => some .store
  | .rdidx => some (if rev then .rdidxR else .rdidxF)
  | .seed => some .seed
  | .tap => some .tap
  | .shim => some .shim
  | .mix => some .mix
  | .emit => some .emit
  | .adv => some .adv

/-- The `PHASE` field of a sequencer word, bits 3 to 0 (R85). -/
def seqPhaseCode (q : SeqWord) : Nat := q.toNat % 16

/-- The `S_REV` bit of a sequencer word, bit 4 (R85). -/
def seqRev (q : SeqWord) : Bool := decide (16 ≤ q.toNat)

/-- The sequencer word `{S_REV, PHASE}` (R85). -/
def seqWordOf (rev : Bool) (p : Phase) : SeqWord :=
  BitVec.ofNat 5 ((if rev then 16 else 0) + p.code)

/-- Decoding of a sequencer word (R85, R88, R92). -/
def decodeSequencer (q : SeqWord) : Except Reject Instr :=
  match phaseOfCode (seqPhaseCode q) with
  | none => .error (.unreachablePhase (seqPhaseCode q))
  | some p =>
    match microStep (seqRev q) p with
    | none => .error .idlePhase
    | some i => .ok i

/-- The decoder, total on every word of every port (R97). -/
def decode (c : Config) : Transaction → Except Reject Instr
  | .sample w => if w < 2 ^ c.sampleW then .ok (.tick w) else .error (.sampleTooWide w)
  | .command w =>
    if w < 2 ^ c.cmdW then .ok (commandInstr (commandSel c w) (commandData c w))
    else .error (.commandTooWide w)
  | .resetLine true => .ok .reset
  | .resetLine false => .error .resetNotAsserted
  | .sequencer q => decodeSequencer q

/-- The command word `{sel, data}` (R82, R87). -/
def commandWord (c : Config) (sel data : Nat) : Transaction := .command (sel * 2 ^ c.dataW + data)

/-- The encoder. A micro-step that does not depend on `S_REV` is given bit 4 = 0 (R88: either value). -/
def encode (c : Config) : Instr → Transaction
  | .tick x => .sample x
  | .wrDelay v => commandWord c 0 v
  | .wrRev v => commandWord c 1 v
  | .wrRep v => commandWord c 2 v
  | .wrWet v => commandWord c 3 v
  | .wrShim v => commandWord c 4 v
  | .reservedSel5 data => commandWord c 5 data
  | .reservedSel67 low data => commandWord c (if low then 7 else 6) data
  | .reset => .resetLine true
  | .latch => .sequencer (seqWordOf false .latch)
  | .acq => .sequencer (seqWordOf false .acq)
  | .store => .sequencer (seqWordOf false .store)
  | .rdidxF => .sequencer (seqWordOf false .rdidx)
  | .rdidxR => .sequencer (seqWordOf true .rdidx)
  | .seed => .sequencer (seqWordOf false .seed)
  | .tap => .sequencer (seqWordOf false .tap)
  | .shim => .sequencer (seqWordOf false .shim)
  | .mix => .sequencer (seqWordOf false .mix)
  | .emit => .sequencer (seqWordOf false .emit)
  | .adv => .sequencer (seqWordOf false .adv)

/-- One row of the opcode table: within its format, a word `w` belongs to it when `w AND mask = match`. -/
structure OpcodeRow where
  /-- The format letter of R80: 0 S, 1 C, 2 Z, 3 Q. -/
  format : Nat
  mask : Nat
  value : Nat
  mnemonic : String
  deriving DecidableEq, Repr

/-- The rows of formats S, C and Z, at the default widths (`spec/opcode_table.json`). -/
def portRows : List OpcodeRow :=
  [ ⟨0, 0x000, 0x000, "TICK"⟩,
    ⟨1, 0x70000, 0x00000, "WR.DELAY"⟩,
    ⟨1, 0x70000, 0x10000, "WR.REV"⟩,
    ⟨1, 0x70000, 0x20000, "WR.REP"⟩,
    ⟨1, 0x70000, 0x30000, "WR.WET"⟩,
    ⟨1, 0x70000, 0x40000, "WR.SHIM"⟩,
    ⟨1, 0x70000, 0x50000, "RESERVED.SEL5"⟩,
    ⟨1, 0x60000, 0x60000, "RESERVED.SEL6_7"⟩,
    ⟨2, 0x1, 0x1, "RESET"⟩ ]

/-- The rows of format Q (R88). -/
def microStepRows : List OpcodeRow :=
  [ ⟨3, 0x0F, 0x01, "LATCH"⟩,
    ⟨3, 0x0F, 0x02, "ACQ"⟩,
    ⟨3, 0x0F, 0x03, "STORE"⟩,
    ⟨3, 0x1F, 0x04, "RDIDX.F"⟩,
    ⟨3, 0x1F, 0x14, "RDIDX.R"⟩,
    ⟨3, 0x0F, 0x05, "SEED"⟩,
    ⟨3, 0x0F, 0x06, "TAP"⟩,
    ⟨3, 0x0F, 0x07, "SHIM"⟩,
    ⟨3, 0x0F, 0x08, "MIX"⟩,
    ⟨3, 0x0F, 0x09, "EMIT"⟩,
    ⟨3, 0x0F, 0x0A, "ADV"⟩ ]

/-- The opcode table. -/
def opcodeRows : List OpcodeRow := portRows ++ microStepRows

/-- Two rows have no word in common, or belong to different formats. -/
def rowsDisjoint (a b : OpcodeRow) : Bool :=
  a.format != b.format || (a.mask &&& b.mask &&& (a.value ^^^ b.value)) != 0

/-- The mnemonic of an instruction (R80, R95). -/
def mnemonic : Instr → String
  | .tick _ => "TICK"
  | .wrDelay _ => "WR.DELAY"
  | .wrRev _ => "WR.REV"
  | .wrRep _ => "WR.REP"
  | .wrWet _ => "WR.WET"
  | .wrShim _ => "WR.SHIM"
  | .reservedSel5 _ => "RESERVED.SEL5"
  | .reservedSel67 _ _ => "RESERVED.SEL6_7"
  | .reset => "RESET"
  | .latch => "LATCH"
  | .acq => "ACQ"
  | .store => "STORE"
  | .rdidxF => "RDIDX.F"
  | .rdidxR => "RDIDX.R"
  | .seed => "SEED"
  | .tap => "TAP"
  | .shim => "SHIM"
  | .mix => "MIX"
  | .emit => "EMIT"
  | .adv => "ADV"

/-- PSET `d, rev, n, w, s`: the five writes in register-number order (R96, R186). -/
def psetInstrs (d rev n w s : Nat) : List Instr :=
  [.wrDelay d, .wrRev rev, .wrRep n, .wrWet w, .wrShim s]

/-- The expansion of a script line into operations, each TICK beside its stated output (R95, R96). -/
def expandLine : ScriptLine → List (Instr × Option Nat)
  | .reset => [(.reset, none)]
  | .wrDelay v => [(.wrDelay v, none)]
  | .wrRev v => [(.wrRev v, none)]
  | .wrRep v => [(.wrRep v, none)]
  | .wrWet v => [(.wrWet v, none)]
  | .wrShim v => [(.wrShim v, none)]
  | .tick x expected => [(.tick x, expected)]
  | .pset d rev n w s => (psetInstrs d rev n w s).map (fun i => (i, none))
  | .ticks xs => xs.map (fun x => (.tick x, none))
  | .ticksTo xys => xys.map (fun p => (.tick p.1, some p.2))

/-- The port word of a table row's bits, numbered as `spec/opcode_table.json` numbers them. The table has no
port in its bits, so the row's width tells the port: 12 bits (16 in whole bytes) a sample, 19 (24) a command
word, 1 the reset line, 5 a sequencer word. In whole bytes the last two are both 8 bits, and the word 1 is
RESET's only word and one of LATCH's two: it is read as RESET (log 14). -/
def tableTransaction (nbits w : Nat) : Option Transaction :=
  match nbits with
  | 12 => some (.sample w)
  | 16 => some (.sample w)
  | 19 => some (.command w)
  | 24 => some (.command w)
  | 1 => some (.resetLine (w == 1))
  | 5 => if w < 32 then some (.sequencer (BitVec.ofNat 5 w)) else none
  | 8 =>
    if w = 1 then some (.resetLine true)
    else if w < 32 then some (.sequencer (BitVec.ofNat 5 w)) else none
  | _ => none

/-- The instruction the decoder reads from a table row's bits, at the default parameters. -/
def decodeTableWord (nbits w : Nat) : Option Instr :=
  match tableTransaction nbits w with
  | none => none
  | some t =>
    match decode Config.defaults t with
    | .ok i => some i
    | .error _ => none

end Sys2Proof
end

