-- ==== Sys2Proof/Machine/State.lean ====
section
/-! DEFINITION. The state of CORE (`spec/10_state.md` R20), the reasons a step can stop, and the state after
reset (R42). -/

namespace Sys2Proof.Machine

open Sys2Proof

/-- The five parameter registers, numbers 0 to 4 of the parameter space (R50, R51). -/
inductive ParamReg where
  | delay | rev | rep | wet | shim
  deriving DecidableEq, Repr

/-- The registers of one invocation that a micro-step reads: the snapshot latches as one, the working
registers of R20 that a later micro-step reads. -/
inductive WorkReg where
  | snap | x | ri | r | acc | sh | mixw
  deriving DecidableEq, Repr

/-- The modulation sign `SGN` (R11, R20). -/
inductive Sign where
  | plus | minus
  deriving DecidableEq, Repr

/-- The snapshot latches `S_DELAY`, `S_REV`, `S_REP`, `S_WET`, `S_SHIM`, loaded all five at once (R36). -/
structure Snapshot where
  /-- `S_DELAY`. -/
  delay : Nat
  /-- `S_REV`: `false` forward, `true` reverse (R27). -/
  rev : Bool
  /-- `S_REP`. -/
  rep : Nat
  /-- `S_WET`. -/
  wet : Nat
  /-- `S_SHIM`. -/
  shim : Nat
  deriving DecidableEq, Repr

/-- What the ports carry at one instant: at most one command word (R206 item b), at most one sample
transaction, and the reset line. `tickFirst` says which of a coinciding tick and write is taken first: both
values are runs (R62, R206 item a; log 7). -/
structure Arrival where
  rst : Bool
  cmd : Option Nat
  tick : Option Nat
  tickFirst : Bool
  deriving DecidableEq, Repr

/-- Who moves next: ENGINE, by one micro-step, or the outside agents, by one arrival (R8, R10; log 7). -/
inductive Turn where
  | engine
  | ports (a : Arrival)
  deriving DecidableEq, Repr

/-- The Delay Buffer entries written since reset, as (index, sample) pairs with strictly rising indices. An
unlisted index has not been written since reset (R22; log 4). -/
abbrev Memory := List (Nat × Nat)

/-- The canonical form of a `Memory`: indices strictly rising. -/
def Memory.wf : Memory → Bool
  | [] => true
  | [_] => true
  | p :: q :: m => decide (p.1 < q.1) && Memory.wf (q :: m)

/-- Why the machine stops with a fault. CORE itself has no exceptions (R200): these mark states no run
reaches. -/
inductive Fault where
  /-- A micro-step read a snapshot latch or working register before its invocation has written it, which R34
  says a model should fault. Raised by STORE, RDIDX.F, RDIDX.R, SEED, TAP, SHIM, MIX and EMIT; safe. -/
  | noValue (reg : WorkReg)
  /-- A buffer access at an index outside `[0, N-1]`, which does not exist (R51, R55). Raised by STORE, SEED
  and TAP; safe. -/
  | noSuchEntry (i : Nat)
  deriving DecidableEq, Repr

/-- Why an operation has no meaning (R201), and the words no port can carry. The end of the run is the mark
R181 asks for: no claim holds of a run that contains one. -/
inductive Refusal where
  /-- The arm of this instruction has no meaning yet. Raised by `exec` only; safe. -/
  | notModelled (mnemonic : String)
  /-- `IllegalParameter`: a parameter value outside its declared range, at a write (R91, R181) or in a
  snapshot an engine step is asked to work from (U1, U2). Raised by the five WR.*, RDIDX.F, RDIDX.R, TAP,
  SHIM, MIX and the TICK made of them; safe. -/
  | illegalParameter (reg : ParamReg) (v : Nat)
  /-- `ReservedRegister`: a command word with `sel` 5, 6 or 7 (R90, R182). Raised by RESERVED.SEL5 and
  RESERVED.SEL6_7; safe. -/
  | reservedRegister (sel : Nat)
  /-- `Overrun`: a tick while an invocation is in progress (R241). Raised by TICK; safe. -/
  | overrun
  /-- A word that no port can carry or the sequencer never forms (R81, R82, R92). Raised by `step`; safe. -/
  | undecodable (why : Reject)
  deriving DecidableEq, Repr

/-- The whole state of CORE (R20), and the model's own fields `cfg`, `draw`, `sampleIn`, `agenda` and
`emitted`. A latch or working register without a value is R34's own state. -/
structure State where
  /-- The implementation parameters; no step changes them (log 1). -/
  cfg : Config
  /-- `BUF`: the entries written since reset (R21, R22). -/
  buf : Memory
  /-- Which draw of the free buffer contents the last reset made (R22, R185; log 3). -/
  draw : Nat
  /-- `WC` (R23). -/
  wc : Nat
  /-- `P_DELAY` (R26). -/
  pDelay : Nat
  /-- `P_REV`: `false` forward, `true` reverse (R27). -/
  pRev : Bool
  /-- `P_REP` (R28). -/
  pRep : Nat
  /-- `P_WET` (R29). -/
  pWet : Nat
  /-- `P_SHIM` (R30). -/
  pShim : Nat
  /-- `S_DELAY`, `S_REV`, `S_REP`, `S_WET`, `S_SHIM` (R36). -/
  snap : Option Snapshot
  /-- `X` (R33). -/
  x : Option Nat
  /-- `RI` (R33). -/
  ri : Option Nat
  /-- `EI` (R33). -/
  ei : Option Nat
  /-- `R` (R33). -/
  r : Option Nat
  /-- `ACC` (R35). -/
  acc : Option Nat
  /-- `LOW` (R33). -/
  low : Option Nat
  /-- `SGN` (R33). -/
  sgn : Option Sign
  /-- `DELTA` (R33). -/
  delta : Option Nat
  /-- `SH` (R33). -/
  sh : Option Nat
  /-- `MIXW` (R33). -/
  mixw : Option Nat
  /-- `Y` (R33). -/
  y : Option Nat
  /-- `PHASE` (R40). -/
  phase : Phase
  /-- The sample of the S transaction in progress (R81, R112; log 13). -/
  sampleIn : Option Nat
  /-- The outside events still to come, oldest first (R10; log 7). -/
  agenda : List Turn
  /-- The observable trace: (input, output) pairs, oldest first (R10, R13, R163; log 8). -/
  emitted : List (Nat × Nat)
  deriving DecidableEq, Repr

/-- The outcome of a step. -/
abbrev StepResult := Host.Outcome State Fault Refusal

/-- The state right after power-on reset at a given configuration (R42). -/
def State.resetWith (c : Config) : State :=
  { cfg := c, buf := [], draw := 0, wc := 0,
    pDelay := 1, pRev := false, pRep := 0, pWet := 0, pShim := 0,
    snap := none, x := none, ri := none, ei := none, r := none, acc := none,
    low := none, sgn := none, delta := none, sh := none, mixw := none, y := none,
    phase := .idle, sampleIn := none, agenda := [], emitted := [] }

/-- The machine right after reset (R42), at the default parameters. -/
def State.reset : State := State.resetWith Config.defaults

end Sys2Proof.Machine
end

