-- ==== Sys2Proof/Machine/Operands.lean ====
section
/-! DEFINITION. The operand forms: the legal range of each parameter register (`spec/30_encoding.md` R83) and
the snapshot ranges the engine rules are stated for (`spec/93_implementation_defined.md` U2). -/

namespace Sys2Proof.Machine

open Sys2Proof

/-- The legal values of a parameter register, the whole of `v` compared (R83, R175 to R179). -/
def paramLegal (c : Config) (r : ParamReg) (v : Nat) : Bool :=
  match r with
  | .delay => decide (1 ≤ v ∧ v ≤ c.capacity - 1)
  | .rev => decide (v ≤ 1)
  | .rep => decide (v ≤ Config.maxRepeats)
  | .wet => decide (v ≤ c.one)
  | .shim => decide (v ≤ c.one)

/-- The register of a number of the parameter space (R51); none for the reserved numbers (R90). -/
def paramOfSel : Nat → Option ParamReg
  | 0 => some .delay
  | 1 => some .rev
  | 2 => some .rep
  | 3 => some .wet
  | 4 => some .shim
  | _ => none

/-- The snapshot delays RDIDX is stated for: every legal value and the tolerated 0 (R114, R115). -/
def delayDefined (c : Config) (d : Nat) : Bool := decide (d < c.capacity)

/-- The snapshot repeat counts TAP is stated for (R141, U2). -/
def repDefined (n : Nat) : Bool := decide (n ≤ Config.maxRepeats)

/-- The snapshot coefficients SHIM and MIX are stated for (R150, R160, U2). -/
def coefDefined (c : Config) (k : Nat) : Bool := decide (k ≤ c.one)

end Sys2Proof.Machine
end

