-- ==== Sys2Proof/Machine/Flags.lean ====
section
/-! DEFINITION. CORE has no flags, condition codes or predicates (`spec/10_state.md` R37), and no operation
records overflow, saturation or a wrapped index. What stands here instead are its only control decisions
(`spec/40_cycle_and_indexing.md` R119), none of which is stored but `SGN`. -/

namespace Sys2Proof.Machine

open Sys2Proof

/-- RDIDX.R takes its wrap branch: `WC < S_DELAY` (R115). -/
def wrapsBehind (wc d : Nat) : Bool := decide (wc < d)

/-- A tap is due: `R <= S_REP` (R41, R141). -/
def tapDue (r n : Nat) : Bool := decide (r ≤ n)

/-- The modulation sign of the inspected bits: positive when they exceed the threshold, strictly (R150). -/
def shimSign (c : Config) (low : Nat) : Sign := if c.shimThresh < low then .plus else .minus

end Sys2Proof.Machine
end

