-- ==== Sys2Proof/Machine/Ops.lean ====
section
/-! DEFINITION. The named operations: reading a register that must hold a value, the Delay Buffer, the
arithmetic of `spec/00_scope.md` R12, parameter writes, the start and the end of an invocation, the output
event, and reset. CORE has no exception to take and none to return from (R200, R207, R208). -/

namespace Sys2Proof.Machine

open Sys2Proof

/-- Run the second part from the first part's next state; a fault or a refusal ends both. -/
def andThen (a : StepResult) (k : State → StepResult) : StepResult :=
  match a with
  | .next s => k s
  | .fault f => .fault f
  | .refused r => .refused r

/-- Read a snapshot latch or working register: its value, or the fault that R34 asks for where the register
holds none ("A model that reads a working register before it is written in the same invocation is wrong and
should fault"). -/
def need {α : Type} (w : WorkReg) (v : Option α) (k : α → StepResult) : StepResult :=
  match v with
  | some a => k a
  | none => .fault (.noValue w)

/-- The value an entry was given since reset, if any. -/
def memFind : Memory → Nat → Option Nat
  | [], _ => none
  | p :: m, i => if p.1 = i then some p.2 else memFind m i

/-- `BUF[i] <- v`, in the canonical form (R13, R113). -/
def memWrite : Memory → Nat → Nat → Memory
  | [], i, v => [(i, v)]
  | p :: m, i, v =>
    if i < p.1 then (i, v) :: p :: m
    else if p.1 = i then (i, v) :: m
    else p :: memWrite m i v

/-- What an unlisted entry reads as: the free value in `[0, FS]` drawn for it at the last reset (R22). -/
def freeSample (c : Config) (draw : Nat) (i : Nat) : Nat :=
  Config.freeEntry draw i % 2 ^ c.sampleW

/-- The contents of entry `i`: `MemRead(i, 1)` (R13, R22, R56). -/
def entry (s : State) (i : Nat) : Nat :=
  match memFind s.buf i with
  | some v => v
  | none => freeSample s.cfg s.draw i

/-- An access to entry `i`, which exists for `i` in `[0, N-1]` only (R13, R51). -/
def atEntry (s : State) (i : Nat) (k : StepResult) : StepResult :=
  if i < s.cfg.capacity then k else .fault (.noSuchEntry i)

/-- The default scaling of one echo tap: 2/5, rounded toward zero (R6, R12 item e). -/
def defaultEchoScale (t : Nat) : Nat := 2 * t / 5

/-- The configured scaling of one echo tap, `echoScale` of R6 and R12 item e: the table's value where the
configuration lists one, else the default (log 5). -/
def echoScale (c : Config) (t : Nat) : Nat :=
  match c.echoTable.lookup t with
  | some v => v
  | none => defaultEchoScale t

/-- `clamp(v, lo, hi)` for any integer `v` (R12 item d). -/
def clamp (v lo hi : Int) : Int := if v < lo then lo else if hi < v then hi else v

/-- The forward read index (R114). -/
def forwardIndex (n wc d : Nat) : Nat := (wc + n - d) % n

/-- The reverse read index, with its two branches (R115). -/
def reverseIndex (n wc d : Nat) : Nat :=
  if wrapsBehind wc d then ((wc + n) - d) % n else (wc - d) % n

/-- The echo index of tap `r` (R141). -/
def echoIndex (n ri r d : Nat) : Nat := (ri + r * d) % n

/-- `LOW` (R150). -/
def lowBits (c : Config) (acc : Nat) : Nat := acc % 2 ^ c.shimBits

/-- `DELTA` (R150). -/
def shimDelta (c : Config) (acc : Nat) (k : Nat) : Nat := acc * k / c.one

/-- `SH` (R150). -/
def shimApply (g : Sign) (acc delta : Nat) : Nat :=
  match g with
  | .plus => acc + delta
  | .minus => acc - delta

/-- `MIXW`: one rounding of the exact sum (R160). -/
def crossfade (c : Config) (x sh : Nat) (w : Nat) : Nat := (x * (c.one - w) + sh * w) / c.one

/-- `Y` (R162). -/
def outputOf (c : Config) (mixw : Nat) : Nat := (clamp mixw 0 c.fs).toNat

/-- `SampleIn()`: the sample of the transaction in progress, or, where there is none, a free input in `[0, FS]`,
the same to every read up to the next output (R13, R112; log 13). -/
def sampleInput (s : State) : Nat :=
  match s.sampleIn with
  | some v => v
  | none => Config.freeInput s.draw s.emitted.length % 2 ^ s.cfg.sampleW

/-- `SampleOut(v)`: the output event, paired with the input of the same invocation (R10, R13, R163). -/
def sampleOut (xin v : Nat) (s : State) : State := { s with emitted := s.emitted ++ [(xin, v)] }

/-- The Parameter Set as the five registers hold it now (R111). -/
def readParams (s : State) : Snapshot :=
  { delay := s.pDelay, rev := s.pRev, rep := s.pRep, wet := s.pWet, shim := s.pShim }

/-- `P_r <- v`, of a legal `v` (R175 to R179). -/
def setParam (r : ParamReg) (v : Nat) (s : State) : State :=
  match r with
  | .delay => { s with pDelay := v }
  | .rev => { s with pRev := v == 1 }
  | .rep => { s with pRep := v }
  | .wet => { s with pWet := v }
  | .shim => { s with pShim := v }

/-- What the five writes have in common: a legal value replaces the whole register, an illegal one is refused
(R180, R181). -/
def writeParam (r : ParamReg) (v : Nat) (s : State) : StepResult :=
  if paramLegal s.cfg r v then .next (setParam r v s) else .refused (.illegalParameter r v)

/-- No latch and no working register holds a value (R34). -/
def clearWork (s : State) : State :=
  { s with
    snap := none, x := none, ri := none, ei := none, r := none, acc := none, low := none,
    sgn := none, delta := none, sh := none, mixw := none, y := none, sampleIn := none }

/-- The start of an invocation: `PHASE: 0 -> 1`, with the transaction's sample on the port (R41, R207). -/
def startInvocation (v : Nat) (s : State) : State :=
  { clearWork s with sampleIn := some v, phase := .latch }

/-- The reset state (R42, R185), with a fresh draw of the buffer contents. What belongs to the outside, the
agenda and the trace, is not CORE's to reset (log 12). -/
def resetState (s : State) : State :=
  { clearWork s with
    buf := [], draw := s.draw + 1, wc := 0, pDelay := 1, pRev := false, pRep := 0, pWet := 0,
    pShim := 0, phase := .idle }

end Sys2Proof.Machine
end

