-- ==== Sys2Proof/Machine/Control.lean ====
section
/-! DEFINITION. The control port and the reset line (`spec/44_control_port.md`): the five parameter writes, the
reserved register numbers, RESET. -/

namespace Sys2Proof.Machine

open Sys2Proof

/-- WR.DELAY: `P_DELAY <- v` for `1 <= v <= N-1` (R175). -/
def execWrDelay (v : Nat) (s : State) : StepResult := writeParam .delay v s

/-- WR.REV: `P_REV <- v` for `v <= 1` (R176). -/
def execWrRev (v : Nat) (s : State) : StepResult := writeParam .rev v s

/-- WR.REP: `P_REP <- v` for `v <= 5` (R177). -/
def execWrRep (v : Nat) (s : State) : StepResult := writeParam .rep v s

/-- WR.WET: `P_WET <- v` for `v <= ONE` (R178). -/
def execWrWet (v : Nat) (s : State) : StepResult := writeParam .wet v s

/-- WR.SHIM: `P_SHIM <- v` for `v <= ONE` (R179). -/
def execWrShim (v : Nat) (s : State) : StepResult := writeParam .shim v s

/-- Register number 5 names no register: refused, whatever the data (R90, R182). -/
def execReservedSel5 (_data : Nat) (_s : State) : StepResult := .refused (.reservedRegister 5)

/-- Register numbers 6 and 7 name no register: refused, whatever the data (R90, R182). -/
def execReservedSel67 (low : Bool) (_data : Nat) (_s : State) : StepResult :=
  .refused (.reservedRegister (if low then 7 else 6))

/-- RESET, at any phase: an invocation in progress is abandoned and emits nothing further (R185). -/
def execReset (s : State) : StepResult := .next (resetState s)

end Sys2Proof.Machine
end

