-- ==== Sys2Proof/Machine/Cycle.lean ====
section
/-! DEFINITION. The micro-steps LATCH, ACQ, STORE, RDIDX.F, RDIDX.R and ADV
(`spec/40_cycle_and_indexing.md`). Each leaves PHASE at the next code (`spec/10_state.md` R41). -/

namespace Sys2Proof.Machine

open Sys2Proof

/-- LATCH: the Parameter Set snapshot, all five registers at once, no range check (R111). -/
def execLatch (s : State) : StepResult := .next { s with snap := some (readParams s), phase := .acq }

/-- ACQ: `X <- SampleIn()` (R112). -/
def execAcq (s : State) : StepResult := .next { s with x := some (sampleInput s), phase := .store }

/-- STORE: `BUF[WC] <- X` (R113). -/
def execStore (s : State) : StepResult :=
  need .x s.x fun v =>
    atEntry s s.wc (.next { s with buf := memWrite s.buf s.wc v, phase := .rdidx })

/-- What the two RDIDX forms share: a snapshot delay the rules are stated for, then `RI` (R114, R115). -/
def setReadIndex (f : Nat → Nat → Nat → Nat) (s : State) : StepResult :=
  need .snap s.snap fun p =>
    if delayDefined s.cfg p.delay then
      .next { s with ri := some (f s.cfg.capacity s.wc p.delay), phase := .seed }
    else .refused (.illegalParameter .delay p.delay)

/-- RDIDX.F: `RI <- (WC + N - S_DELAY) mod N` (R114). -/
def execRdidxF (s : State) : StepResult := setReadIndex forwardIndex s

/-- RDIDX.R: the same position, with explicit wrap-around handling (R115). -/
def execRdidxR (s : State) : StepResult := setReadIndex reverseIndex s

/-- ADV: `WC <- (WC + 1) mod N` and the end of the invocation, after which no latch and no working register
holds a value (R118, R34). -/
def execAdv (s : State) : StepResult :=
  .next { clearWork s with wc := (s.wc + 1) % s.cfg.capacity, phase := .idle }

end Sys2Proof.Machine
end

