-- ==== Sys2Proof/Machine/Echo.lean ====
section
/-! DEFINITION. The micro-steps SEED and TAP (`spec/41_echo.md`). -/

namespace Sys2Proof.Machine

open Sys2Proof

/-- SEED: `ACC <- BUF[RI]; R <- 1` (R140, R41). -/
def execSeed (s : State) : StepResult :=
  need .ri s.ri fun i =>
    atEntry s i (.next { s with acc := some (entry s i), r := some 1, phase := .tap })

/-- One tap with tap number `r` (R141): `EI`, then `ACC` plus the scaled entry, then `R + 1`. -/
def performTap (p : Snapshot) (r : Nat) (s : State) : StepResult :=
  need .ri s.ri fun i =>
    need .acc s.acc fun a =>
      let e := echoIndex s.cfg.capacity i r p.delay
      atEntry s e (.next { s with
        ei := some e, acc := some (a + echoScale s.cfg (entry s e)), r := some (r + 1), phase := .tap })

/-- TAP: one tap while `R <= S_REP`; otherwise no tap and `PHASE <- 7` (R141, R41). -/
def execTap (s : State) : StepResult :=
  need .snap s.snap fun p =>
    need .r s.r fun r =>
      if repDefined p.rep then
        if tapDue r p.rep then performTap p r s else .next { s with phase := .shim }
      else .refused (.illegalParameter .rep p.rep)

end Sys2Proof.Machine
end

