-- ==== Sys2Proof/Machine/MixEmit.lean ====
section
/-! DEFINITION. The micro-steps MIX and EMIT (`spec/43_mix_and_emit.md`). -/

namespace Sys2Proof.Machine

open Sys2Proof

/-- MIX: `MIXW <- floor((X * (ONE - S_WET) + SH * S_WET) / ONE)` (R160). -/
def execMix (s : State) : StepResult :=
  need .x s.x fun v =>
    need .sh s.sh fun h =>
      need .snap s.snap fun p =>
        if coefDefined s.cfg p.wet then
          .next { s with mixw := some (crossfade s.cfg v h p.wet), phase := .emit }
        else .refused (.illegalParameter .wet p.wet)

/-- EMIT: `Y <- clamp(MIXW, 0, FS); SampleOut(Y)` (R162). -/
def execEmit (s : State) : StepResult :=
  need .mixw s.mixw fun m =>
    .next { sampleOut (sampleInput s) (outputOf s.cfg m) s with
      y := some (outputOf s.cfg m), phase := .adv }

end Sys2Proof.Machine
end

