-- ==== Sys2Proof/Machine/Shimmer.lean ====
section
/-! DEFINITION. The micro-step SHIM (`spec/42_shimmer.md`). -/

namespace Sys2Proof.Machine

open Sys2Proof

/-- SHIM: `LOW`, `SGN`, `DELTA` and `SH` from `ACC` and `S_SHIM` (R150). -/
def execShim (s : State) : StepResult :=
  need .acc s.acc fun a =>
    need .snap s.snap fun p =>
      if coefDefined s.cfg p.shim then
        let low := lowBits s.cfg a
        let g := shimSign s.cfg low
        let d := shimDelta s.cfg a p.shim
        .next { s with
          low := some low, sgn := some g, delta := some d, sh := some (shimApply g a d),
          phase := .mix }
      else .refused (.illegalParameter .shim p.shim)

end Sys2Proof.Machine
end

