-- ==== Sys2Proof/Machine/Tick.lean ====
section
/-! DEFINITION. TICK (`spec/40_cycle_and_indexing.md` R110): the composite of the micro-steps in the order of
`spec/30_encoding.md` R86. -/

namespace Sys2Proof.Machine

open Sys2Proof

/-- RDIDX: exactly one of the two forms, chosen by `S_REV` (R86, R110). -/
def selectReadIndex (s : State) : StepResult :=
  need .snap s.snap fun p => if p.rev then execRdidxR s else execRdidxF s

/-- TAP repeated while PHASE is 6, at most `fuel` times (R41). -/
def tapLoop : Nat → State → StepResult
  | 0, s => .next s
  | fuel + 1, s =>
    match s.phase with
    | .tap => andThen (execTap s) (tapLoop fuel)
    | _ => .next s

/-- The micro-steps of one invocation in the only order they run (R86). At most five taps and one
fall-through are ever due (R5, R41). -/
def runInvocation (s : State) : StepResult :=
  andThen (execLatch s) fun s =>
  andThen (execAcq s) fun s =>
  andThen (execStore s) fun s =>
  andThen (selectReadIndex s) fun s =>
  andThen (execSeed s) fun s =>
  andThen (tapLoop (Config.maxRepeats + 1) s) fun s =>
  andThen (execShim s) fun s =>
  andThen (execMix s) fun s =>
  andThen (execEmit s) execAdv

/-- TICK `x` (R110). A tick with PHASE not 0 is an overrun (R241). In the atomic reading of R9 the whole
invocation is this one transition; in the stepped reading the transition is the start, and ENGINE performs the
micro-steps one at a time after it (log 6). -/
def execTick (x : Nat) (s : State) : StepResult :=
  if s.phase = .idle then
    if s.cfg.stepped then .next (startInvocation x s) else runInvocation (startInvocation x s)
  else .refused .overrun

end Sys2Proof.Machine
end

