-- ==== Sys2Proof/Machine/Dispatch.lean ====
section
/-! DEFINITION. One arm per instruction, each one call of its meaning. -/

namespace Sys2Proof.Machine

open Sys2Proof

def exec (i : Instr) (s : State) : Host.Outcome State Fault Refusal :=
  match i with
  | .tick x => Sys2Proof.Machine.execTick x s
  | .wrDelay v => Sys2Proof.Machine.execWrDelay v s
  | .wrRev v => Sys2Proof.Machine.execWrRev v s
  | .wrRep v => Sys2Proof.Machine.execWrRep v s
  | .wrWet v => Sys2Proof.Machine.execWrWet v s
  | .wrShim v => Sys2Proof.Machine.execWrShim v s
  | .reservedSel5 data => Sys2Proof.Machine.execReservedSel5 data s
  | .reservedSel67 low data => Sys2Proof.Machine.execReservedSel67 low data s
  | .reset => Sys2Proof.Machine.execReset s
  | .latch => Sys2Proof.Machine.execLatch s
  | .acq => Sys2Proof.Machine.execAcq s
  | .store => Sys2Proof.Machine.execStore s
  | .rdidxF => Sys2Proof.Machine.execRdidxF s
  | .rdidxR => Sys2Proof.Machine.execRdidxR s
  | .seed => Sys2Proof.Machine.execSeed s
  | .tap => Sys2Proof.Machine.execTap s
  | .shim => Sys2Proof.Machine.execShim s
  | .mix => Sys2Proof.Machine.execMix s
  | .emit => Sys2Proof.Machine.execEmit s
  | .adv => Sys2Proof.Machine.execAdv s

end Sys2Proof.Machine
end

