-- ==== Sys2Proof/Machine/Fetch.lean ====
section
/-! DEFINITION. What the machine does next. CORE fetches no instructions (`spec/20_memory.md` R65): the next
operation comes from a port or from the sequencer word (`spec/30_encoding.md` R97). -/

namespace Sys2Proof.Machine

open Sys2Proof

/-- The sequencer word `{S_REV, PHASE}` of a state; before LATCH the bit is not yet meaningful (R85). -/
def seqWord (s : State) : SeqWord :=
  seqWordOf (match s.snap with | some p => p.rev | none => false) s.phase

/-- The choice of the next operation: none, with the state that holds then, or a port's or the sequencer's
word, with the state its operation starts from. -/
inductive Fetched where
  | nothing (s : State)
  | word (t : Transaction) (s : State)
  deriving DecidableEq, Repr

/-- The state whose remaining events are `rest`. -/
def withAgenda (rest : List Turn) (s : State) : State := { s with agenda := rest }

/-- ENGINE's move: the micro-step of the sequencer word, or nothing while it is idle (R85, R205). -/
def engineMove (s : State) : Fetched :=
  if s.phase = .idle then .nothing s else .word (.sequencer (seqWord s)) s

/-- What the words of one arrival start. A coinciding tick and write are taken one after the other, in either
order (R62, R206 item a). -/
def portWord (a : Arrival) (rest : List Turn) (s : State) : Fetched :=
  match a.cmd, a.tick with
  | none, none => .nothing (withAgenda rest s)
  | some w, none => .word (.command w) (withAgenda rest s)
  | none, some v => .word (.sample v) (withAgenda rest s)
  | some w, some v =>
    if a.tickFirst then
      .word (.sample v) (withAgenda (.ports { a with tick := none } :: rest) s)
    else
      .word (.command w) (withAgenda (.ports { a with cmd := none } :: rest) s)

/-- The next operation. A reset wins over whatever coincides with it (R206 item c). At PHASE = 1 ENGINE moves
before any port but reset, so that a write after a tick is not seen by that tick's invocation (R61, R111;
log 9). With no event left, ENGINE finishes the invocation in progress and is then idle (R205). -/
def fetch (s : State) : Fetched :=
  match s.agenda with
  | [] => engineMove s
  | .engine :: rest => engineMove (withAgenda rest s)
  | .ports a :: rest =>
    if a.rst then .word (.resetLine true) (withAgenda rest s)
    else if s.phase = .latch then engineMove s
    else portWord a rest s

/-- An instant at which one port carries one word. -/
def arrivalOf : Transaction → Turn
  | .sample w => .ports { rst := false, cmd := none, tick := some w, tickFirst := true }
  | .command w => .ports { rst := false, cmd := some w, tick := none, tickFirst := false }
  | .resetLine b => .ports { rst := b, cmd := none, tick := none, tickFirst := false }
  | .sequencer _ => .engine

/-- Put a port's word before all other events. A tick that has started but not latched is withdrawn, since
ENGINE would move first (log 15). -/
def placePortWord (t : Transaction) (s : State) : State :=
  if s.phase = .latch then
    { clearWork s with phase := .idle, agenda := arrivalOf t :: s.agenda }
  else { s with agenda := arrivalOf t :: s.agenda }

/-- Give a working register the value an earlier micro-step would have written, or none. -/
def written {α : Type} (b : Bool) (v : α) : Option α := if b then some v else none

/-- Put ENGINE before the micro-step of phase `p` of an invocation with input 0, with a value in every
register the earlier micro-steps write (log 15). -/
def placeMicroStep (rev : Bool) (p : Phase) (s : State) : State :=
  let k := p.code
  let n := if p = .tap then max 1 s.pRep else s.pRep
  { s with
    phase := p, agenda := .engine :: s.agenda, sampleIn := written (decide (0 < k)) 0,
    snap := written (decide (1 < k)) { readParams s with rev := rev, rep := n },
    x := written (decide (2 < k)) 0,
    ri := written (decide (4 < k)) (forwardIndex s.cfg.capacity s.wc s.pDelay),
    r := written (decide (5 < k)) (if p = .tap then 1 else n + 1),
    acc := written (decide (5 < k)) 0,
    ei := none,
    low := written (decide (7 < k)) 0,
    sgn := written (decide (7 < k)) .minus,
    delta := written (decide (7 < k)) 0,
    sh := written (decide (7 < k)) 0,
    mixw := written (decide (8 < k)) 0,
    y := written (decide (9 < k)) 0 }

/-- Put a word where the next step takes it. A sequencer word that selects no micro-step is no state of the
sequencer (R92) and changes nothing. -/
def placeWord (t : Transaction) (s : State) : State :=
  match t with
  | .sequencer q =>
    match phaseOfCode (seqPhaseCode q) with
    | none => s
    | some .idle => s
    | some p => placeMicroStep (seqRev q) p s
  | t => placePortWord t s

end Sys2Proof.Machine
end

