-- ==== Sys2Proof/Machine/Step.lean ====
section
/-! DEFINITION. One step of the machine: the next operation of `fetch`, decoded and executed; and the placing of
a table row's word where the next step takes it. -/

namespace Sys2Proof.Machine

open Sys2Proof

/-- One step. With nothing to do the state only moves past the event (R205). -/
def step (s : State) : Host.Outcome State Fault Refusal :=
  match fetch s with
  | .nothing t => .next t
  | .word w t =>
    match decode t.cfg w with
    | .ok i => exec i t
    | .error r => .refused (.undecodable r)

/-- The state with a table row's word placed where `step` takes its next operation (log 15). -/
def State.withFetchWord (s : State) (nbits w : Nat) : State :=
  match tableTransaction nbits w with
  | some t => placeWord t s
  | none => s

end Sys2Proof.Machine
end

