-- ==== Sys2Proof/Safety.lean ====
section
/-! DEFINITION. The terms claims are stated in: legal states (`spec/70_reset_and_hazards.md` R247 item a) and the
invariant of a state inside an invocation (`spec/10_state.md` R20, R34), the host contract of one event (R190,
R193, R247 items b and c), the runs of several ticks, and the closed form of one invocation (R110). -/

namespace Sys2Proof

open Sys2Proof.Machine

/-- The constraints R6 puts on the parameters, and the named properties R12 item e lets proofs rely on of
`echoScale`, a function on `[0, FS]`: the last two are `0.4 t - 1 < echoScale(t) <= 0.4 t` over the integers. -/
structure Config.Legal (c : Config) : Prop where
  two_le_capacity : 2 ≤ c.capacity
  capacity_le : c.capacity ≤ 2 ^ c.dataW
  one_le_sampleW : 1 ≤ c.sampleW
  one_le_shimBits : 1 ≤ c.shimBits
  shimBits_le : c.shimBits ≤ c.accW
  shimThresh_le : c.shimThresh ≤ 2 ^ c.shimBits - 1
  three_le_dataW : 3 ≤ c.dataW
  coef_le_dataW : c.coefFrac + 1 ≤ c.dataW
  echo_zero : echoScale c 0 = 0
  echo_mono : ∀ a b, a ≤ b → b ≤ c.fs → echoScale c a ≤ echoScale c b
  echo_le : ∀ t, t ≤ c.fs → echoScale c t ≤ t
  echo_above : ∀ t, t ≤ c.fs → 2 * t < 5 * echoScale c t + 5
  echo_below : ∀ t, t ≤ c.fs → 5 * echoScale c t ≤ 2 * t

end Sys2Proof

namespace Sys2Proof.Machine

open Sys2Proof

/-- The persistent state is legal: the configuration obeys R6, the buffer is in canonical form with entries
in `[0, FS]` at indices in `[0, N-1]`, `WC` and the five parameters are in range (R247 item a). -/
structure State.Legal (s : State) : Prop where
  cfg : s.cfg.Legal
  wf : Memory.wf s.buf = true
  entries : ∀ p ∈ s.buf, p.1 < s.cfg.capacity ∧ p.2 ≤ s.cfg.fs
  wc : s.wc < s.cfg.capacity
  delay_pos : 1 ≤ s.pDelay
  delay_lt : s.pDelay < s.cfg.capacity
  rep : s.pRep ≤ Config.maxRepeats
  wet : s.pWet ≤ s.cfg.one
  shim : s.pShim ≤ s.cfg.one

/-- Which registers hold a value at which phase: exactly those an earlier micro-step of the invocation wrote
(R33, R34). `EI` is written by TAP only, so not at all with no taps. -/
structure State.Presence (s : State) : Prop where
  sampleIn : s.sampleIn.isSome = decide (0 < s.phase.code)
  snap : s.snap.isSome = decide (1 < s.phase.code)
  x : s.x.isSome = decide (2 < s.phase.code)
  ri : s.ri.isSome = decide (4 < s.phase.code)
  r : s.r.isSome = decide (5 < s.phase.code)
  acc : s.acc.isSome = decide (5 < s.phase.code)
  ei : s.ei.isSome = true → 5 < s.phase.code
  low : s.low.isSome = decide (7 < s.phase.code)
  sgn : s.sgn.isSome = decide (7 < s.phase.code)
  delta : s.delta.isSome = decide (7 < s.phase.code)
  sh : s.sh.isSome = decide (7 < s.phase.code)
  mixw : s.mixw.isSome = decide (8 < s.phase.code)
  y : s.y.isSome = decide (9 < s.phase.code)

/-- The five latched parameters are in their legal ranges. -/
def Snapshot.Legal (c : Config) (p : Snapshot) : Prop :=
  1 ≤ p.delay ∧ p.delay < c.capacity ∧ p.rep ≤ Config.maxRepeats ∧ p.wet ≤ c.one ∧ p.shim ≤ c.one

/-- The ranges of the latches and working registers (the table of R20). The bound of `ACC` counts the taps
done so far (R142 item b). -/
structure State.Ranges (s : State) : Prop where
  sampleIn : ∀ v, s.sampleIn = some v → v ≤ s.cfg.fs
  snap : ∀ p, s.snap = some p → p.Legal s.cfg
  x : ∀ v, s.x = some v → s.sampleIn = some v
  ri : ∀ i, s.ri = some i → i < s.cfg.capacity
  ei : ∀ i, s.ei = some i → i < s.cfg.capacity
  r : ∀ r, s.r = some r → 1 ≤ r ∧ ∀ p, s.snap = some p → r ≤ p.rep + 1
  acc : ∀ a, s.acc = some a → ∀ r, s.r = some r → a ≤ s.cfg.fs + (r - 1) * echoScale s.cfg s.cfg.fs
  low : ∀ v, s.low = some v → v < 2 ^ s.cfg.shimBits
  delta : ∀ d, s.delta = some d → ∀ a, s.acc = some a → d ≤ a
  sh : ∀ h, s.sh = some h → ∀ a, s.acc = some a → h ≤ 2 * a
  mixw : ∀ m, s.mixw = some m → ∀ v h, s.x = some v → s.sh = some h → min v h ≤ m ∧ m ≤ max v h
  y : ∀ v, s.y = some v → v ≤ s.cfg.fs

/-- The invariant of the machine: what holds at reset and after every step. -/
structure State.Inv (s : State) : Prop where
  legal : s.Legal
  presence : s.Presence
  ranges : s.Ranges

/-- The operation is one a conforming agent issues: a legal value and a defined register number (R83, R190,
R247 item c). -/
def legalInstr (c : Config) : Instr → Bool
  | .tick x => decide (x ≤ c.fs)
  | .wrDelay v => paramLegal c .delay v
  | .wrRev v => paramLegal c .rev v
  | .wrRep v => paramLegal c .rep v
  | .wrWet v => paramLegal c .wet v
  | .wrShim v => paramLegal c .shim v
  | .reservedSel5 _ => false
  | .reservedSel67 _ _ => false
  | _ => true

/-- A port's word is one a conforming agent presents (R193). -/
def LegalWord (c : Config) (t : Transaction) : Prop :=
  ∃ i, decode c t = .ok i ∧ legalInstr c i = true

/-- The next event keeps the host contract: its words are legal (`LegalWrites`), and it holds no tick while
an invocation is in progress (`NoOverrun`), unless reset wins over them (R206, R247). -/
def State.KeepsContract (s : State) : Prop :=
  ∀ a rest, s.agenda = .ports a :: rest → a.rst = false →
    (∀ w, a.cmd = some w → LegalWord s.cfg (.command w)) ∧
    (∀ v, a.tick = some v → LegalWord s.cfg (.sample v) ∧ s.phase = .idle)

/-- `BUF = 0`, the optional launch premise of R236 and R247 item e. -/
def State.BufZero (s : State) : Prop := ∀ i, i < s.cfg.capacity → entry s i = 0

/-- Several invocations one after the other, in the atomic reading: TICKS `x1, .., xk` (R96). -/
def runTicks : List Nat → State → StepResult
  | [], s => .next s
  | x :: xs, s => andThen (execTick x s) (runTicks xs)

/-- Several operations one after the other, each taken alone (R10, R61). -/
def runInstrs : List Instr → State → StepResult
  | [], s => .next s
  | i :: is, s => andThen (exec i s) (runInstrs is)

/-- How many invocations ago the entry that tap `r` reads was written: tap 1 reads the input just stored
(R58). -/
def tapLag (n d r : Nat) : Nat := if (r - 1) * d % n = 0 then 0 else n - (r - 1) * d % n

/-- The sum of the scaled taps `1 .. n` (R141 item d), read in the state `s`. -/
def tapSum (s : State) (ri d : Nat) : Nat → Nat
  | 0 => 0
  | n + 1 => tapSum s ri d n + echoScale s.cfg (entry s ((ri + (n + 1) * d) % s.cfg.capacity))

/-- The sum of the tapped entries `1 .. n` before scaling, `T` of R142 item d. -/
def rawSum (s : State) (ri d : Nat) : Nat → Nat
  | 0 => 0
  | n + 1 => rawSum s ri d n + entry s ((ri + (n + 1) * d) % s.cfg.capacity)

/-- The state after STORE of an invocation with input `x`. -/
def afterStore (s : State) (x : Nat) : State := { s with buf := memWrite s.buf s.wc x }

/-- The accumulated delayed sample of an invocation with input `x` (R110, R141). -/
def delayedSample (s : State) (x : Nat) : Nat :=
  let i := (s.wc + s.cfg.capacity - s.pDelay) % s.cfg.capacity
  entry (afterStore s x) i + tapSum (afterStore s x) i s.pDelay s.pRep

/-- The shimmer stage's result for the value `a` at depth `k` (R150). -/
def shimmered (c : Config) (a k : Nat) : Nat :=
  if c.shimThresh < a % 2 ^ c.shimBits then a + a * k / c.one else a - a * k / c.one

/-- The output sample of an invocation with input `x` (R110): a function of `x`, `BUF`, `WC` and the five
parameters, and of nothing else. -/
def tickOutput (s : State) (x : Nat) : Nat :=
  min ((x * (s.cfg.one - s.pWet) +
    shimmered s.cfg (delayedSample s x) s.pShim * s.pWet) / s.cfg.one) s.cfg.fs

/-- The state after an invocation with input `x` (R110). -/
def afterTick (s : State) (x : Nat) : State :=
  { clearWork s with
    buf := memWrite s.buf s.wc x
    wc := (s.wc + 1) % s.cfg.capacity
    phase := .idle
    emitted := s.emitted ++ [(x, tickOutput s x)] }

/-- What one invocation of the atomic reading starts from: a legal state, no invocation in progress. -/
structure State.Ready (s : State) : Prop where
  legal : s.Legal
  idle : s.phase = .idle
  atomic : s.cfg.stepped = false

/-- Everything that persists across invocations, and the model's own fields, is unchanged. -/
structure State.SamePersistent (s t : State) : Prop where
  cfg : t.cfg = s.cfg
  buf : t.buf = s.buf
  draw : t.draw = s.draw
  wc : t.wc = s.wc
  pDelay : t.pDelay = s.pDelay
  pRev : t.pRev = s.pRev
  pRep : t.pRep = s.pRep
  pWet : t.pWet = s.pWet
  pShim : t.pShim = s.pShim
  agenda : t.agenda = s.agenda
  emitted : t.emitted = s.emitted

/-- The output samples of a trace, in order (R10). -/
def outputs (s : State) : List Nat := s.emitted.map Prod.snd

end Sys2Proof.Machine
end

