-- ==== Sys2Proof/Laws/State.lean ====
section
/-! SUPPORT. One lemma per field per update of `State`, so that no proof unfolds a record update. -/

namespace Sys2Proof.Machine

open Sys2Proof

/-! `clearWork`: every latch and working register loses its value, nothing else changes (R34). -/
@[simp] theorem clearWork_cfg (s : State) : (clearWork s).cfg = s.cfg := rfl
@[simp] theorem clearWork_buf (s : State) : (clearWork s).buf = s.buf := rfl
@[simp] theorem clearWork_draw (s : State) : (clearWork s).draw = s.draw := rfl
@[simp] theorem clearWork_wc (s : State) : (clearWork s).wc = s.wc := rfl
@[simp] theorem clearWork_pDelay (s : State) : (clearWork s).pDelay = s.pDelay := rfl
@[simp] theorem clearWork_pRev (s : State) : (clearWork s).pRev = s.pRev := rfl
@[simp] theorem clearWork_pRep (s : State) : (clearWork s).pRep = s.pRep := rfl
@[simp] theorem clearWork_pWet (s : State) : (clearWork s).pWet = s.pWet := rfl
@[simp] theorem clearWork_pShim (s : State) : (clearWork s).pShim = s.pShim := rfl
@[simp] theorem clearWork_snap (s : State) : (clearWork s).snap = none := rfl
@[simp] theorem clearWork_x (s : State) : (clearWork s).x = none := rfl
@[simp] theorem clearWork_ri (s : State) : (clearWork s).ri = none := rfl
@[simp] theorem clearWork_ei (s : State) : (clearWork s).ei = none := rfl
@[simp] theorem clearWork_r (s : State) : (clearWork s).r = none := rfl
@[simp] theorem clearWork_acc (s : State) : (clearWork s).acc = none := rfl
@[simp] theorem clearWork_low (s : State) : (clearWork s).low = none := rfl
@[simp] theorem clearWork_sgn (s : State) : (clearWork s).sgn = none := rfl
@[simp] theorem clearWork_delta (s : State) : (clearWork s).delta = none := rfl
@[simp] theorem clearWork_sh (s : State) : (clearWork s).sh = none := rfl
@[simp] theorem clearWork_mixw (s : State) : (clearWork s).mixw = none := rfl
@[simp] theorem clearWork_y (s : State) : (clearWork s).y = none := rfl
@[simp] theorem clearWork_phase (s : State) : (clearWork s).phase = s.phase := rfl
@[simp] theorem clearWork_sampleIn (s : State) : (clearWork s).sampleIn = none := rfl
@[simp] theorem clearWork_agenda (s : State) : (clearWork s).agenda = s.agenda := rfl
@[simp] theorem clearWork_emitted (s : State) : (clearWork s).emitted = s.emitted := rfl

/-! `startInvocation` (R207). -/
@[simp] theorem startInvocation_cfg (v : Nat) (s : State) : (startInvocation v s).cfg = s.cfg := rfl
@[simp] theorem startInvocation_buf (v : Nat) (s : State) : (startInvocation v s).buf = s.buf := rfl
@[simp] theorem startInvocation_draw (v : Nat) (s : State) : (startInvocation v s).draw = s.draw := rfl
@[simp] theorem startInvocation_wc (v : Nat) (s : State) : (startInvocation v s).wc = s.wc := rfl
@[simp] theorem startInvocation_pDelay (v : Nat) (s : State) : (startInvocation v s).pDelay = s.pDelay := rfl
@[simp] theorem startInvocation_pRev (v : Nat) (s : State) : (startInvocation v s).pRev = s.pRev := rfl
@[simp] theorem startInvocation_pRep (v : Nat) (s : State) : (startInvocation v s).pRep = s.pRep := rfl
@[simp] theorem startInvocation_pWet (v : Nat) (s : State) : (startInvocation v s).pWet = s.pWet := rfl
@[simp] theorem startInvocation_pShim (v : Nat) (s : State) : (startInvocation v s).pShim = s.pShim := rfl
@[simp] theorem startInvocation_snap (v : Nat) (s : State) : (startInvocation v s).snap = none := rfl
@[simp] theorem startInvocation_x (v : Nat) (s : State) : (startInvocation v s).x = none := rfl
@[simp] theorem startInvocation_ri (v : Nat) (s : State) : (startInvocation v s).ri = none := rfl
@[simp] theorem startInvocation_ei (v : Nat) (s : State) : (startInvocation v s).ei = none := rfl
@[simp] theorem startInvocation_r (v : Nat) (s : State) : (startInvocation v s).r = none := rfl
@[simp] theorem startInvocation_acc (v : Nat) (s : State) : (startInvocation v s).acc = none := rfl
@[simp] theorem startInvocation_low (v : Nat) (s : State) : (startInvocation v s).low = none := rfl
@[simp] theorem startInvocation_sgn (v : Nat) (s : State) : (startInvocation v s).sgn = none := rfl
@[simp] theorem startInvocation_delta (v : Nat) (s : State) : (startInvocation v s).delta = none := rfl
@[simp] theorem startInvocation_sh (v : Nat) (s : State) : (startInvocation v s).sh = none := rfl
@[simp] theorem startInvocation_mixw (v : Nat) (s : State) : (startInvocation v s).mixw = none := rfl
@[simp] theorem startInvocation_y (v : Nat) (s : State) : (startInvocation v s).y = none := rfl
@[simp] theorem startInvocation_phase (v : Nat) (s : State) : (startInvocation v s).phase = .latch := rfl
@[simp] theorem startInvocation_sampleIn (v : Nat) (s : State) : (startInvocation v s).sampleIn = some v := rfl
@[simp] theorem startInvocation_agenda (v : Nat) (s : State) : (startInvocation v s).agenda = s.agenda := rfl
@[simp] theorem startInvocation_emitted (v : Nat) (s : State) : (startInvocation v s).emitted = s.emitted := rfl

/-! `resetState` (R42). -/
@[simp] theorem resetState_cfg (s : State) : (resetState s).cfg = s.cfg := rfl
@[simp] theorem resetState_buf (s : State) : (resetState s).buf = [] := rfl
@[simp] theorem resetState_draw (s : State) : (resetState s).draw = s.draw + 1 := rfl
@[simp] theorem resetState_wc (s : State) : (resetState s).wc = 0 := rfl
@[simp] theorem resetState_pDelay (s : State) : (resetState s).pDelay = 1 := rfl
@[simp] theorem resetState_pRev (s : State) : (resetState s).pRev = false := rfl
@[simp] theorem resetState_pRep (s : State) : (resetState s).pRep = 0 := rfl
@[simp] theorem resetState_pWet (s : State) : (resetState s).pWet = 0 := rfl
@[simp] theorem resetState_pShim (s : State) : (resetState s).pShim = 0 := rfl
@[simp] theorem resetState_snap (s : State) : (resetState s).snap = none := rfl
@[simp] theorem resetState_x (s : State) : (resetState s).x = none := rfl
@[simp] theorem resetState_ri (s : State) : (resetState s).ri = none := rfl
@[simp] theorem resetState_ei (s : State) : (resetState s).ei = none := rfl
@[simp] theorem resetState_r (s : State) : (resetState s).r = none := rfl
@[simp] theorem resetState_acc (s : State) : (resetState s).acc = none := rfl
@[simp] theorem resetState_low (s : State) : (resetState s).low = none := rfl
@[simp] theorem resetState_sgn (s : State) : (resetState s).sgn = none := rfl
@[simp] theorem resetState_delta (s : State) : (resetState s).delta = none := rfl
@[simp] theorem resetState_sh (s : State) : (resetState s).sh = none := rfl
@[simp] theorem resetState_mixw (s : State) : (resetState s).mixw = none := rfl
@[simp] theorem resetState_y (s : State) : (resetState s).y = none := rfl
@[simp] theorem resetState_phase (s : State) : (resetState s).phase = .idle := rfl
@[simp] theorem resetState_sampleIn (s : State) : (resetState s).sampleIn = none := rfl
@[simp] theorem resetState_agenda (s : State) : (resetState s).agenda = s.agenda := rfl
@[simp] theorem resetState_emitted (s : State) : (resetState s).emitted = s.emitted := rfl

/-! `sampleOut` (R13). -/
@[simp] theorem sampleOut_cfg (xin v : Nat) (s : State) : (sampleOut xin v s).cfg = s.cfg := rfl
@[simp] theorem sampleOut_buf (xin v : Nat) (s : State) : (sampleOut xin v s).buf = s.buf := rfl
@[simp] theorem sampleOut_draw (xin v : Nat) (s : State) : (sampleOut xin v s).draw = s.draw := rfl
@[simp] theorem sampleOut_wc (xin v : Nat) (s : State) : (sampleOut xin v s).wc = s.wc := rfl
@[simp] theorem sampleOut_pDelay (xin v : Nat) (s : State) : (sampleOut xin v s).pDelay = s.pDelay := rfl
@[simp] theorem sampleOut_pRev (xin v : Nat) (s : State) : (sampleOut xin v s).pRev = s.pRev := rfl
@[simp] theorem sampleOut_pRep (xin v : Nat) (s : State) : (sampleOut xin v s).pRep = s.pRep := rfl
@[simp] theorem sampleOut_pWet (xin v : Nat) (s : State) : (sampleOut xin v s).pWet = s.pWet := rfl
@[simp] theorem sampleOut_pShim (xin v : Nat) (s : State) : (sampleOut xin v s).pShim = s.pShim := rfl
@[simp] theorem sampleOut_snap (xin v : Nat) (s : State) : (sampleOut xin v s).snap = s.snap := rfl
@[simp] theorem sampleOut_x (xin v : Nat) (s : State) : (sampleOut xin v s).x = s.x := rfl
@[simp] theorem sampleOut_ri (xin v : Nat) (s : State) : (sampleOut xin v s).ri = s.ri := rfl
@[simp] theorem sampleOut_ei (xin v : Nat) (s : State) : (sampleOut xin v s).ei = s.ei := rfl
@[simp] theorem sampleOut_r (xin v : Nat) (s : State) : (sampleOut xin v s).r = s.r := rfl
@[simp] theorem sampleOut_acc (xin v : Nat) (s : State) : (sampleOut xin v s).acc = s.acc := rfl
@[simp] theorem sampleOut_low (xin v : Nat) (s : State) : (sampleOut xin v s).low = s.low := rfl
@[simp] theorem sampleOut_sgn (xin v : Nat) (s : State) : (sampleOut xin v s).sgn = s.sgn := rfl
@[simp] theorem sampleOut_delta (xin v : Nat) (s : State) : (sampleOut xin v s).delta = s.delta := rfl
@[simp] theorem sampleOut_sh (xin v : Nat) (s : State) : (sampleOut xin v s).sh = s.sh := rfl
@[simp] theorem sampleOut_mixw (xin v : Nat) (s : State) : (sampleOut xin v s).mixw = s.mixw := rfl
@[simp] theorem sampleOut_y (xin v : Nat) (s : State) : (sampleOut xin v s).y = s.y := rfl
@[simp] theorem sampleOut_phase (xin v : Nat) (s : State) : (sampleOut xin v s).phase = s.phase := rfl
@[simp] theorem sampleOut_sampleIn (xin v : Nat) (s : State) : (sampleOut xin v s).sampleIn = s.sampleIn := rfl
@[simp] theorem sampleOut_agenda (xin v : Nat) (s : State) : (sampleOut xin v s).agenda = s.agenda := rfl
@[simp] theorem sampleOut_emitted (xin v : Nat) (s : State) : (sampleOut xin v s).emitted = s.emitted ++ [(xin, v)] := rfl

/-! `withAgenda`. -/
@[simp] theorem withAgenda_cfg (rest : List Turn) (s : State) : (withAgenda rest s).cfg = s.cfg := rfl
@[simp] theorem withAgenda_buf (rest : List Turn) (s : State) : (withAgenda rest s).buf = s.buf := rfl
@[simp] theorem withAgenda_draw (rest : List Turn) (s : State) : (withAgenda rest s).draw = s.draw := rfl
@[simp] theorem withAgenda_wc (rest : List Turn) (s : State) : (withAgenda rest s).wc = s.wc := rfl
@[simp] theorem withAgenda_pDelay (rest : List Turn) (s : State) : (withAgenda rest s).pDelay = s.pDelay := rfl
@[simp] theorem withAgenda_pRev (rest : List Turn) (s : State) : (withAgenda rest s).pRev = s.pRev := rfl
@[simp] theorem withAgenda_pRep (rest : List Turn) (s : State) : (withAgenda rest s).pRep = s.pRep := rfl
@[simp] theorem withAgenda_pWet (rest : List Turn) (s : State) : (withAgenda rest s).pWet = s.pWet := rfl
@[simp] theorem withAgenda_pShim (rest : List Turn) (s : State) : (withAgenda rest s).pShim = s.pShim := rfl
@[simp] theorem withAgenda_snap (rest : List Turn) (s : State) : (withAgenda rest s).snap = s.snap := rfl
@[simp] theorem withAgenda_x (rest : List Turn) (s : State) : (withAgenda rest s).x = s.x := rfl
@[simp] theorem withAgenda_ri (rest : List Turn) (s : State) : (withAgenda rest s).ri = s.ri := rfl
@[simp] theorem withAgenda_ei (rest : List Turn) (s : State) : (withAgenda rest s).ei = s.ei := rfl
@[simp] theorem withAgenda_r (rest : List Turn) (s : State) : (withAgenda rest s).r = s.r := rfl
@[simp] theorem withAgenda_acc (rest : List Turn) (s : State) : (withAgenda rest s).acc = s.acc := rfl
@[simp] theorem withAgenda_low (rest : List Turn) (s : State) : (withAgenda rest s).low = s.low := rfl
@[simp] theorem withAgenda_sgn (rest : List Turn) (s : State) : (withAgenda rest s).sgn = s.sgn := rfl
@[simp] theorem withAgenda_delta (rest : List Turn) (s : State) : (withAgenda rest s).delta = s.delta := rfl
@[simp] theorem withAgenda_sh (rest : List Turn) (s : State) : (withAgenda rest s).sh = s.sh := rfl
@[simp] theorem withAgenda_mixw (rest : List Turn) (s : State) : (withAgenda rest s).mixw = s.mixw := rfl
@[simp] theorem withAgenda_y (rest : List Turn) (s : State) : (withAgenda rest s).y = s.y := rfl
@[simp] theorem withAgenda_phase (rest : List Turn) (s : State) : (withAgenda rest s).phase = s.phase := rfl
@[simp] theorem withAgenda_sampleIn (rest : List Turn) (s : State) : (withAgenda rest s).sampleIn = s.sampleIn := rfl
@[simp] theorem withAgenda_agenda (rest : List Turn) (s : State) : (withAgenda rest s).agenda = rest := rfl
@[simp] theorem withAgenda_emitted (rest : List Turn) (s : State) : (withAgenda rest s).emitted = s.emitted := rfl

/-! `afterStore` (R113). -/
@[simp] theorem afterStore_cfg (s : State) (v : Nat) : (afterStore s v).cfg = s.cfg := rfl
@[simp] theorem afterStore_buf (s : State) (v : Nat) : (afterStore s v).buf = memWrite s.buf s.wc v := rfl
@[simp] theorem afterStore_draw (s : State) (v : Nat) : (afterStore s v).draw = s.draw := rfl
@[simp] theorem afterStore_wc (s : State) (v : Nat) : (afterStore s v).wc = s.wc := rfl
@[simp] theorem afterStore_pDelay (s : State) (v : Nat) : (afterStore s v).pDelay = s.pDelay := rfl
@[simp] theorem afterStore_pRev (s : State) (v : Nat) : (afterStore s v).pRev = s.pRev := rfl
@[simp] theorem afterStore_pRep (s : State) (v : Nat) : (afterStore s v).pRep = s.pRep := rfl
@[simp] theorem afterStore_pWet (s : State) (v : Nat) : (afterStore s v).pWet = s.pWet := rfl
@[simp] theorem afterStore_pShim (s : State) (v : Nat) : (afterStore s v).pShim = s.pShim := rfl
@[simp] theorem afterStore_snap (s : State) (v : Nat) : (afterStore s v).snap = s.snap := rfl
@[simp] theorem afterStore_x (s : State) (v : Nat) : (afterStore s v).x = s.x := rfl
@[simp] theorem afterStore_ri (s : State) (v : Nat) : (afterStore s v).ri = s.ri := rfl
@[simp] theorem afterStore_ei (s : State) (v : Nat) : (afterStore s v).ei = s.ei := rfl
@[simp] theorem afterStore_r (s : State) (v : Nat) : (afterStore s v).r = s.r := rfl
@[simp] theorem afterStore_acc (s : State) (v : Nat) : (afterStore s v).acc = s.acc := rfl
@[simp] theorem afterStore_low (s : State) (v : Nat) : (afterStore s v).low = s.low := rfl
@[simp] theorem afterStore_sgn (s : State) (v : Nat) : (afterStore s v).sgn = s.sgn := rfl
@[simp] theorem afterStore_delta (s : State) (v : Nat) : (afterStore s v).delta = s.delta := rfl
@[simp] theorem afterStore_sh (s : State) (v : Nat) : (afterStore s v).sh = s.sh := rfl
@[simp] theorem afterStore_mixw (s : State) (v : Nat) : (afterStore s v).mixw = s.mixw := rfl
@[simp] theorem afterStore_y (s : State) (v : Nat) : (afterStore s v).y = s.y := rfl
@[simp] theorem afterStore_phase (s : State) (v : Nat) : (afterStore s v).phase = s.phase := rfl
@[simp] theorem afterStore_sampleIn (s : State) (v : Nat) : (afterStore s v).sampleIn = s.sampleIn := rfl
@[simp] theorem afterStore_agenda (s : State) (v : Nat) : (afterStore s v).agenda = s.agenda := rfl
@[simp] theorem afterStore_emitted (s : State) (v : Nat) : (afterStore s v).emitted = s.emitted := rfl

/-! `afterTick` (R110). -/
@[simp] theorem afterTick_cfg (s : State) (v : Nat) : (afterTick s v).cfg = s.cfg := rfl
@[simp] theorem afterTick_buf (s : State) (v : Nat) : (afterTick s v).buf = memWrite s.buf s.wc v := rfl
@[simp] theorem afterTick_draw (s : State) (v : Nat) : (afterTick s v).draw = s.draw := rfl
@[simp] theorem afterTick_wc (s : State) (v : Nat) : (afterTick s v).wc = (s.wc + 1) % s.cfg.capacity := rfl
@[simp] theorem afterTick_pDelay (s : State) (v : Nat) : (afterTick s v).pDelay = s.pDelay := rfl
@[simp] theorem afterTick_pRev (s : State) (v : Nat) : (afterTick s v).pRev = s.pRev := rfl
@[simp] theorem afterTick_pRep (s : State) (v : Nat) : (afterTick s v).pRep = s.pRep := rfl
@[simp] theorem afterTick_pWet (s : State) (v : Nat) : (afterTick s v).pWet = s.pWet := rfl
@[simp] theorem afterTick_pShim (s : State) (v : Nat) : (afterTick s v).pShim = s.pShim := rfl
@[simp] theorem afterTick_snap (s : State) (v : Nat) : (afterTick s v).snap = none := rfl
@[simp] theorem afterTick_x (s : State) (v : Nat) : (afterTick s v).x = none := rfl
@[simp] theorem afterTick_ri (s : State) (v : Nat) : (afterTick s v).ri = none := rfl
@[simp] theorem afterTick_ei (s : State) (v : Nat) : (afterTick s v).ei = none := rfl
@[simp] theorem afterTick_r (s : State) (v : Nat) : (afterTick s v).r = none := rfl
@[simp] theorem afterTick_acc (s : State) (v : Nat) : (afterTick s v).acc = none := rfl
@[simp] theorem afterTick_low (s : State) (v : Nat) : (afterTick s v).low = none := rfl
@[simp] theorem afterTick_sgn (s : State) (v : Nat) : (afterTick s v).sgn = none := rfl
@[simp] theorem afterTick_delta (s : State) (v : Nat) : (afterTick s v).delta = none := rfl
@[simp] theorem afterTick_sh (s : State) (v : Nat) : (afterTick s v).sh = none := rfl
@[simp] theorem afterTick_mixw (s : State) (v : Nat) : (afterTick s v).mixw = none := rfl
@[simp] theorem afterTick_y (s : State) (v : Nat) : (afterTick s v).y = none := rfl
@[simp] theorem afterTick_phase (s : State) (v : Nat) : (afterTick s v).phase = .idle := rfl
@[simp] theorem afterTick_sampleIn (s : State) (v : Nat) : (afterTick s v).sampleIn = none := rfl
@[simp] theorem afterTick_agenda (s : State) (v : Nat) : (afterTick s v).agenda = s.agenda := rfl
@[simp] theorem afterTick_emitted (s : State) (v : Nat) : (afterTick s v).emitted = s.emitted ++ [(v, tickOutput s v)] := rfl


/-! `setParam`: one parameter register, nothing else (R180). -/
@[simp] theorem setParam_cfg (reg : ParamReg) (v : Nat) (s : State) :
    (setParam reg v s).cfg = s.cfg := by cases reg <;> rfl
@[simp] theorem setParam_buf (reg : ParamReg) (v : Nat) (s : State) :
    (setParam reg v s).buf = s.buf := by cases reg <;> rfl
@[simp] theorem setParam_draw (reg : ParamReg) (v : Nat) (s : State) :
    (setParam reg v s).draw = s.draw := by cases reg <;> rfl
@[simp] theorem setParam_wc (reg : ParamReg) (v : Nat) (s : State) :
    (setParam reg v s).wc = s.wc := by cases reg <;> rfl
@[simp] theorem setParam_pDelay (reg : ParamReg) (v : Nat) (s : State) :
    (setParam reg v s).pDelay = if reg = .delay then v else s.pDelay := by cases reg <;> rfl
@[simp] theorem setParam_pRev (reg : ParamReg) (v : Nat) (s : State) :
    (setParam reg v s).pRev = if reg = .rev then (v == 1) else s.pRev := by cases reg <;> rfl
@[simp] theorem setParam_pRep (reg : ParamReg) (v : Nat) (s : State) :
    (setParam reg v s).pRep = if reg = .rep then v else s.pRep := by cases reg <;> rfl
@[simp] theorem setParam_pWet (reg : ParamReg) (v : Nat) (s : State) :
    (setParam reg v s).pWet = if reg = .wet then v else s.pWet := by cases reg <;> rfl
@[simp] theorem setParam_pShim (reg : ParamReg) (v : Nat) (s : State) :
    (setParam reg v s).pShim = if reg = .shim then v else s.pShim := by cases reg <;> rfl
@[simp] theorem setParam_snap (reg : ParamReg) (v : Nat) (s : State) :
    (setParam reg v s).snap = s.snap := by cases reg <;> rfl
@[simp] theorem setParam_x (reg : ParamReg) (v : Nat) (s : State) :
    (setParam reg v s).x = s.x := by cases reg <;> rfl
@[simp] theorem setParam_ri (reg : ParamReg) (v : Nat) (s : State) :
    (setParam reg v s).ri = s.ri := by cases reg <;> rfl
@[simp] theorem setParam_ei (reg : ParamReg) (v : Nat) (s : State) :
    (setParam reg v s).ei = s.ei := by cases reg <;> rfl
@[simp] theorem setParam_r (reg : ParamReg) (v : Nat) (s : State) :
    (setParam reg v s).r = s.r := by cases reg <;> rfl
@[simp] theorem setParam_acc (reg : ParamReg) (v : Nat) (s : State) :
    (setParam reg v s).acc = s.acc := by cases reg <;> rfl
@[simp] theorem setParam_low (reg : ParamReg) (v : Nat) (s : State) :
    (setParam reg v s).low = s.low := by cases reg <;> rfl
@[simp] theorem setParam_sgn (reg : ParamReg) (v : Nat) (s : State) :
    (setParam reg v s).sgn = s.sgn := by cases reg <;> rfl
@[simp] theorem setParam_delta (reg : ParamReg) (v : Nat) (s : State) :
    (setParam reg v s).delta = s.delta := by cases reg <;> rfl
@[simp] theorem setParam_sh (reg : ParamReg) (v : Nat) (s : State) :
    (setParam reg v s).sh = s.sh := by cases reg <;> rfl
@[simp] theorem setParam_mixw (reg : ParamReg) (v : Nat) (s : State) :
    (setParam reg v s).mixw = s.mixw := by cases reg <;> rfl
@[simp] theorem setParam_y (reg : ParamReg) (v : Nat) (s : State) :
    (setParam reg v s).y = s.y := by cases reg <;> rfl
@[simp] theorem setParam_phase (reg : ParamReg) (v : Nat) (s : State) :
    (setParam reg v s).phase = s.phase := by cases reg <;> rfl
@[simp] theorem setParam_sampleIn (reg : ParamReg) (v : Nat) (s : State) :
    (setParam reg v s).sampleIn = s.sampleIn := by cases reg <;> rfl
@[simp] theorem setParam_agenda (reg : ParamReg) (v : Nat) (s : State) :
    (setParam reg v s).agenda = s.agenda := by cases reg <;> rfl
@[simp] theorem setParam_emitted (reg : ParamReg) (v : Nat) (s : State) :
    (setParam reg v s).emitted = s.emitted := by cases reg <;> rfl

end Sys2Proof.Machine
end

