-- ==== Sys2Proof/Laws/Memory.lean ====
section
/-! SUPPORT. The Delay Buffer: a read after a write, the canonical form, the ranges of entries. -/

namespace Sys2Proof.Machine

open Sys2Proof

theorem memFind_memWrite_same (m : Memory) (i : Nat) (v : Nat) :
    memFind (memWrite m i v) i = some v := by
  induction m with
  | nil => simp [memWrite, memFind]
  | cons p m ih =>
    by_cases hlt : i < p.1
    · simp [memWrite, hlt, memFind]
    · by_cases heq : p.1 = i
      · simp [memWrite, heq, memFind]
      · simp [memWrite, hlt, heq, memFind, ih]

theorem memFind_memWrite_other (m : Memory) {i j : Nat} (v : Nat) (h : j ≠ i) :
    memFind (memWrite m i v) j = memFind m j := by
  have h' : ¬ i = j := fun e => h e.symm
  induction m with
  | nil => simp [memWrite, memFind, h']
  | cons p m ih =>
    by_cases hlt : i < p.1
    · simp [memWrite, hlt, memFind, h']
    · by_cases heq : p.1 = i
      · simp [memWrite, heq, memFind, h']
      · simp [memWrite, hlt, heq, memFind, ih]

theorem memFind_memWrite (m : Memory) (i j : Nat) (v : Nat) :
    memFind (memWrite m i v) j = if j = i then some v else memFind m j := by
  by_cases h : j = i
  · subst h; simp [memFind_memWrite_same]
  · simp [h, memFind_memWrite_other m v h]

/-- The canonical form of a non-empty list: its first index is below all others. -/
theorem wf_cons_iff (p : Nat × Nat) (m : Memory) :
    Memory.wf (p :: m) = true ↔ (∀ q ∈ m, p.1 < q.1) ∧ Memory.wf m = true := by
  induction m generalizing p with
  | nil => simp [Memory.wf]
  | cons q m ih =>
    simp only [Memory.wf, Bool.and_eq_true, decide_eq_true_eq, List.mem_cons, forall_eq_or_imp]
    constructor
    · rintro ⟨hpq, hq⟩
      exact ⟨⟨hpq, fun a ha => Nat.lt_trans hpq (((ih q).1 hq).1 a ha)⟩, hq⟩
    · rintro ⟨⟨hpq, -⟩, hq⟩
      exact ⟨hpq, hq⟩

theorem mem_memWrite {m : Memory} {i : Nat} {v : Nat} {p : Nat × Nat}
    (h : p ∈ memWrite m i v) : p = (i, v) ∨ p ∈ m := by
  induction m with
  | nil => simpa [memWrite] using h
  | cons q m ih =>
    simp only [memWrite] at h
    split at h
    · simpa using h
    · split at h
      · rcases List.mem_cons.1 h with h | h
        · exact .inl h
        · exact .inr (List.mem_cons_of_mem _ h)
      · rcases List.mem_cons.1 h with h | h
        · exact .inr (by simp [h])
        · exact (ih h).imp id (List.mem_cons_of_mem _)

/-- Writing keeps the canonical form. -/
theorem memWrite_wf {m : Memory} (i : Nat) (v : Nat) (h : Memory.wf m = true) :
    Memory.wf (memWrite m i v) = true := by
  induction m with
  | nil => rfl
  | cons p m ih =>
    obtain ⟨hall, hm⟩ := (wf_cons_iff p m).1 h
    simp only [memWrite]
    split
    case isTrue hlt =>
      refine (wf_cons_iff _ _).2 ⟨?_, h⟩
      simp only [List.mem_cons, forall_eq_or_imp]
      exact ⟨hlt, fun q hq => Nat.lt_trans hlt (hall q hq)⟩
    case isFalse hlt =>
      split
      case isTrue heq => exact (wf_cons_iff _ _).2 ⟨by simpa [heq] using hall, hm⟩
      case isFalse hne =>
        refine (wf_cons_iff _ _).2 ⟨fun q hq => ?_, ih hm⟩
        rcases mem_memWrite hq with rfl | hq
        · exact Nat.lt_of_le_of_ne (Nat.le_of_not_lt hlt) hne
        · exact hall q hq

/-- The buffer after power-on reset is in canonical form, at every configuration. -/
theorem resetWith_buf_wf (c : Config) : Memory.wf (State.resetWith c).buf = true := rfl

/-- The buffer after RESET is in canonical form. -/
theorem resetState_buf_wf (s : State) : Memory.wf (resetState s).buf = true := rfl

/-- Writing in range keeps every entry in range. -/
theorem memWrite_entries {m : Memory} {n top i v : Nat} (hi : i < n) (hv : v ≤ top)
    (h : ∀ p ∈ m, p.1 < n ∧ p.2 ≤ top) : ∀ p ∈ memWrite m i v, p.1 < n ∧ p.2 ≤ top := by
  intro p hp
  rcases mem_memWrite hp with rfl | hp
  · exact ⟨hi, hv⟩
  · exact h p hp

theorem mem_of_memFind {m : Memory} {i : Nat} {v : Nat} (h : memFind m i = some v) :
    (i, v) ∈ m := by
  induction m with
  | nil => simp [memFind] at h
  | cons p m ih =>
    simp only [memFind] at h
    split at h
    case isTrue heq =>
      obtain ⟨a, b⟩ := p
      simp_all
    case isFalse => exact List.mem_cons_of_mem _ (ih h)

theorem freeSample_le (c : Config) (draw : Nat) (i : Nat) : freeSample c draw i ≤ c.fs := by
  have hpos : 0 < 2 ^ c.sampleW := Nat.two_pow_pos _
  have := Nat.mod_lt (Config.freeEntry draw i) hpos
  exact Nat.le_sub_one_of_lt this

/-- Every entry of a legal buffer reads in `[0, FS]`, written or not (R21, R22). -/
theorem entry_le {s : State} (h : ∀ p ∈ s.buf, p.1 < s.cfg.capacity ∧ p.2 ≤ s.cfg.fs) (i : Nat) :
    entry s i ≤ s.cfg.fs := by
  unfold entry
  split
  case h_1 v hv => exact (h _ (mem_of_memFind hv)).2
  case h_2 => exact freeSample_le _ _ _

/-- A read depends on the buffer, the draw and the configuration only. -/
theorem entry_congr (s t : State) (hb : t.buf = s.buf) (hd : t.draw = s.draw) (hc : t.cfg = s.cfg)
    (i : Nat) : entry t i = entry s i := by simp [entry, hb, hd, hc]

/-- Reading after `BUF[i] <- v`. -/
theorem entry_write (s t : State) {i v : Nat} (hb : t.buf = memWrite s.buf i v)
    (hd : t.draw = s.draw) (hc : t.cfg = s.cfg) (j : Nat) :
    entry t j = if j = i then v else entry s j := by
  unfold entry
  rw [hb, hd, hc, memFind_memWrite]
  by_cases h : j = i <;> simp [h]

end Sys2Proof.Machine
end

