-- ==== Sys2Proof/Laws/Ops.lean ====
section
/-! SUPPORT. What each shared operation can do, once. -/

namespace Sys2Proof.Machine

open Sys2Proof

/-- A next state is that state. -/
theorem next_eq_next {s t : State} : (.next s : StepResult) = .next t ↔ t = s := by
  constructor
  · intro h; injection h with h; exact h.symm
  · rintro rfl; rfl

@[simp] theorem andThen_next (s : State) (k : State → StepResult) : andThen (.next s) k = k s := rfl

/-- `andThen` answers a next state through the first part's next state only. -/
theorem andThen_eq_next {a : StepResult} {k : State → StepResult} {t : State} :
    andThen a k = .next t ↔ ∃ u, a = .next u ∧ k u = .next t := by
  cases a <;> simp [andThen]

@[simp] theorem need_some {α : Type} (w : WorkReg) (a : α) (k : α → StepResult) :
    need w (some a) k = k a := rfl

/-- `need` answers a next state through the value of the register only. -/
theorem need_eq_next {α : Type} {w : WorkReg} {v : Option α} {k : α → StepResult} {t : State} :
    need w v k = .next t ↔ ∃ a, v = some a ∧ k a = .next t := by
  cases v <;> simp [need]

/-- An access answers a next state at an entry that exists only. -/
theorem atEntry_eq_next {s t : State} {i : Nat} {k : StepResult} :
    atEntry s i k = .next t ↔ i < s.cfg.capacity ∧ k = .next t := by
  unfold atEntry; split <;> simp_all

/-- With nothing in its table a configuration scales by the default (R6). -/
theorem echoScale_of_table_nil {c : Config} (h : c.echoTable = []) (t : Nat) :
    echoScale c t = defaultEchoScale t := by
  simp [echoScale, h]

/-- The properties of R12 item e leave one function on `[0, FS]`: the default. -/
theorem echoScale_eq_default {c : Config} (h : c.Legal) {t : Nat} (ht : t ≤ c.fs) :
    echoScale c t = defaultEchoScale t := by
  have h1 := h.echo_above t ht
  have h2 := h.echo_below t ht
  unfold defaultEchoScale
  omega

/-- The default has every property R12 item e names. -/
theorem defaultEchoScale_bounds (t : Nat) :
    2 * t < 5 * defaultEchoScale t + 5 ∧ 5 * defaultEchoScale t ≤ 2 * t := by
  unfold defaultEchoScale; omega

theorem defaultEchoScale_le (t : Nat) : defaultEchoScale t ≤ t := by unfold defaultEchoScale; omega

theorem defaultEchoScale_mono {a b : Nat} (h : a ≤ b) : defaultEchoScale a ≤ defaultEchoScale b := by
  unfold defaultEchoScale; omega

/-- A configuration with nothing in its table meets R12 item e; what is left to check is R6's own
constraints. -/
theorem legal_of_table_nil {c : Config} (h : c.echoTable = []) (h1 : 2 ≤ c.capacity)
    (h2 : c.capacity ≤ 2 ^ c.dataW) (h3 : 1 ≤ c.sampleW) (h4 : 1 ≤ c.shimBits) (h5 : c.shimBits ≤ c.accW)
    (h6 : c.shimThresh ≤ 2 ^ c.shimBits - 1) (h7 : 3 ≤ c.dataW) (h8 : c.coefFrac + 1 ≤ c.dataW) :
    c.Legal :=
  { two_le_capacity := h1, capacity_le := h2, one_le_sampleW := h3, one_le_shimBits := h4,
    shimBits_le := h5, shimThresh_le := h6, three_le_dataW := h7, coef_le_dataW := h8,
    echo_zero := by rw [echoScale_of_table_nil h]; rfl
    echo_mono := fun a b hab _ => by
      simp only [echoScale_of_table_nil h]; exact defaultEchoScale_mono hab
    echo_le := fun t _ => by rw [echoScale_of_table_nil h]; exact defaultEchoScale_le t
    echo_above := fun t _ => by rw [echoScale_of_table_nil h]; exact (defaultEchoScale_bounds t).1
    echo_below := fun t _ => by rw [echoScale_of_table_nil h]; exact (defaultEchoScale_bounds t).2 }

/-- The input is the transaction's sample where there is one. -/
theorem sampleInput_of_some {s : State} {v : Nat} (h : s.sampleIn = some v) : sampleInput s = v := by
  simp [sampleInput, h]

/-- The input depends on the transaction, the draw, the outputs so far and the configuration only. -/
theorem sampleInput_congr (s t : State) (h1 : t.sampleIn = s.sampleIn) (h2 : t.draw = s.draw)
    (h3 : t.emitted = s.emitted) (h4 : t.cfg = s.cfg) : sampleInput t = sampleInput s := by
  simp [sampleInput, h1, h2, h3, h4]

/-- Whatever the port gives is in `[0, FS]` when the transaction's sample is. -/
theorem sampleInput_le {s : State} (h : ∀ v, s.sampleIn = some v → v ≤ s.cfg.fs) :
    sampleInput s ≤ s.cfg.fs := by
  unfold sampleInput
  split
  case h_1 v hv => exact h v hv
  case h_2 => exact Nat.le_sub_one_of_lt (Nat.mod_lt _ (Nat.two_pow_pos _))

theorem one_pos (c : Config) : 0 < c.one := Nat.two_pow_pos _

/-- The lower bound of the clamp never engages on a natural number: `Y = min(MIXW, FS)` (R162). -/
theorem outputOf_eq_min (c : Config) (m : Nat) : outputOf c m = min m c.fs := by
  have hlo : ¬ ((m : Int) < 0) := by omega
  by_cases h : (c.fs : Int) < m
  · have hle : c.fs ≤ m := by exact_mod_cast h.le
    simp [outputOf, clamp, hlo, h, Nat.min_eq_right hle]
  · have hle : m ≤ c.fs := by exact_mod_cast Int.not_lt.1 h
    simp [outputOf, clamp, hlo, h, Nat.min_eq_left hle]

theorem outputOf_le (c : Config) (m : Nat) : outputOf c m ≤ c.fs := by
  rw [outputOf_eq_min]; exact Nat.min_le_right _ _

/-- Forward and reverse mode compute the same read index (R116). -/
theorem reverseIndex_eq_forwardIndex (n wc d : Nat) :
    reverseIndex n wc d = forwardIndex n wc d := by
  unfold reverseIndex forwardIndex wrapsBehind
  by_cases h : wc < d
  · simp [h]
  · have : wc + n - d = (wc - d) + n := by omega
    simp [h, this]

theorem forwardIndex_lt {n : Nat} (wc d : Nat) (hn : 0 < n) : forwardIndex n wc d < n :=
  Nat.mod_lt _ hn

theorem echoIndex_lt {n : Nat} (ri r d : Nat) (hn : 0 < n) : echoIndex n ri r d < n :=
  Nat.mod_lt _ hn

/-- `DELTA <= ACC` for a coefficient code in `[0, ONE]` (R150 item e). -/
theorem shimDelta_le {c : Config} {a k : Nat} (h : k ≤ c.one) : shimDelta c a k ≤ a := by
  unfold shimDelta
  exact Nat.div_le_of_le_mul (by rw [Nat.mul_comm c.one]; exact Nat.mul_le_mul_left a h)

theorem shimApply_le {g : Sign} {a d : Nat} (h : d ≤ a) : shimApply g a d ≤ 2 * a := by
  cases g <;> simp only [shimApply] <;> omega

/-- The crossfade lies between its two inputs (R160). -/
theorem crossfade_between {c : Config} {x h w : Nat} (hw : w ≤ c.one) :
    min x h ≤ crossfade c x h w ∧ crossfade c x h w ≤ max x h := by
  have h1 : c.one - w + w = c.one := Nat.sub_add_cancel hw
  constructor
  · rw [crossfade, Nat.le_div_iff_mul_le (one_pos c)]
    calc min x h * c.one = min x h * (c.one - w) + min x h * w := by rw [← Nat.mul_add, h1]
      _ ≤ x * (c.one - w) + h * w :=
        Nat.add_le_add (Nat.mul_le_mul_right _ (Nat.min_le_left _ _))
          (Nat.mul_le_mul_right _ (Nat.min_le_right _ _))
  · rw [crossfade]
    refine Nat.div_le_of_le_mul ?_
    calc x * (c.one - w) + h * w ≤ max x h * (c.one - w) + max x h * w :=
        Nat.add_le_add (Nat.mul_le_mul_right _ (Nat.le_max_left _ _))
          (Nat.mul_le_mul_right _ (Nat.le_max_right _ _))
      _ = c.one * max x h := by rw [← Nat.mul_add, h1, Nat.mul_comm]

/-- The legal ranges of R83, register by register. -/
theorem paramLegal_iff (c : Config) (reg : ParamReg) (v : Nat) :
    paramLegal c reg v = true ↔
      match reg with
      | .delay => 1 ≤ v ∧ v ≤ c.capacity - 1
      | .rev => v ≤ 1
      | .rep => v ≤ 5
      | .wet => v ≤ c.one
      | .shim => v ≤ c.one := by
  cases reg <;> exact decide_eq_true_iff

theorem delayDefined_iff (c : Config) (d : Nat) : delayDefined c d = true ↔ d < c.capacity :=
  decide_eq_true_iff

theorem repDefined_iff (n : Nat) : repDefined n = true ↔ n ≤ 5 := decide_eq_true_iff

theorem coefDefined_iff (c : Config) (k : Nat) : coefDefined c k = true ↔ k ≤ c.one :=
  decide_eq_true_iff

theorem tapDue_iff (r n : Nat) : tapDue r n = true ↔ r ≤ n := decide_eq_true_iff

/-- A write answers the register's new value for a legal value only (R175 to R181). -/
theorem writeParam_eq_next {reg : ParamReg} {v : Nat} {s t : State} :
    writeParam reg v s = .next t ↔ paramLegal s.cfg reg v = true ∧ t = setParam reg v s := by
  unfold writeParam
  split
  case isTrue h => simp only [next_eq_next, h, true_and]
  case isFalse h => simp [h]

/-- RESET of the state after power-on reset is that state with the next draw (R185). -/
theorem resetState_resetWith (c : Config) :
    resetState (State.resetWith c) = { State.resetWith c with draw := 1 } := rfl

/-- A micro-step is selected at every phase but idle (R85). -/
theorem microStep_isSome (rev : Bool) (p : Phase) : (microStep rev p).isSome = true ↔ p ≠ .idle := by
  cases p <;> simp [microStep]

/-- The decoder reads back the sequencer word of a phase (R85, R88). -/
theorem decodeSequencer_seqWordOf (rev : Bool) (p : Phase) (i : Instr)
    (h : microStep rev p = some i) : decodeSequencer (seqWordOf rev p) = .ok i := by
  revert i
  cases rev <;> cases p <;> simp [microStep] <;> rfl

end Sys2Proof.Machine
end

