-- ==== Sys2Proof/Laws/PerInstr.lean ====
section
/-! SUPPORT. Decode and encode agree, per constructor of `Instr` (`spec/30_encoding.md` R82, R87, R88, R97). -/

namespace Sys2Proof.Laws.RoundTrip

open Sys2Proof

/-- Decoding the encoding of a well-formed instruction gives the instruction, at every configuration. -/
def Statement (i : Instr) : Prop :=
  ∀ c : Config, WellFormed c i = true → decode c (encode c i) = .ok i

/-- A command word's two fields read back. -/
theorem decode_commandWord (c : Config) {sel data : Nat} (hs : sel < 8) (hd : data < 2 ^ c.dataW) :
    decode c (commandWord c sel data) = .ok (commandInstr sel data) := by
  have hpos : 0 < 2 ^ c.dataW := Nat.two_pow_pos _
  have hsel : (sel * 2 ^ c.dataW + data) / 2 ^ c.dataW = sel := by
    rw [Nat.mul_comm, Nat.mul_add_div hpos, Nat.div_eq_of_lt hd, Nat.add_zero]
  have hdata : (sel * 2 ^ c.dataW + data) % 2 ^ c.dataW = data := by
    rw [Nat.mul_comm, Nat.mul_add_mod, Nat.mod_eq_of_lt hd]
  have hw : sel * 2 ^ c.dataW + data < 2 ^ c.cmdW := by
    have : (sel + 1) * 2 ^ c.dataW ≤ 8 * 2 ^ c.dataW := Nat.mul_le_mul_right _ hs
    rw [Config.cmdW, Nat.pow_add]
    rw [Nat.add_mul] at this
    omega
  simp [decode, commandWord, hw, commandSel, commandData, hsel, hdata, Nat.mod_eq_of_lt hs]

theorem tick (x : Nat) : Statement (.tick x) := by
  intro c h
  simpa [decode, encode, WellFormed] using h

theorem wrDelay (v : Nat) : Statement (.wrDelay v) := fun c h =>
  decode_commandWord c (sel := 0) (by decide) (by simpa [WellFormed] using h)

theorem wrRev (v : Nat) : Statement (.wrRev v) := fun c h =>
  decode_commandWord c (sel := 1) (by decide) (by simpa [WellFormed] using h)

theorem wrRep (v : Nat) : Statement (.wrRep v) := fun c h =>
  decode_commandWord c (sel := 2) (by decide) (by simpa [WellFormed] using h)

theorem wrWet (v : Nat) : Statement (.wrWet v) := fun c h =>
  decode_commandWord c (sel := 3) (by decide) (by simpa [WellFormed] using h)

theorem wrShim (v : Nat) : Statement (.wrShim v) := fun c h =>
  decode_commandWord c (sel := 4) (by decide) (by simpa [WellFormed] using h)

theorem reservedSel5 (data : Nat) : Statement (.reservedSel5 data) := fun c h =>
  decode_commandWord c (sel := 5) (by decide) (by simpa [WellFormed] using h)

theorem reservedSel67 (low : Bool) (data : Nat) : Statement (.reservedSel67 low data) := by
  intro c h
  have hd : data < 2 ^ c.dataW := by simpa [WellFormed] using h
  cases low
  · exact decode_commandWord c (sel := 6) (by decide) hd
  · exact decode_commandWord c (sel := 7) (by decide) hd

theorem reset : Statement .reset := fun _ _ => rfl

theorem latch : Statement .latch := fun _ _ => rfl

theorem acq : Statement .acq := fun _ _ => rfl

theorem store : Statement .store := fun _ _ => rfl

theorem rdidxF : Statement .rdidxF := fun _ _ => rfl

theorem rdidxR : Statement .rdidxR := fun _ _ => rfl

theorem seed : Statement .seed := fun _ _ => rfl

theorem tap : Statement .tap := fun _ _ => rfl

theorem shim : Statement .shim := fun _ _ => rfl

theorem mix : Statement .mix := fun _ _ => rfl

theorem emit : Statement .emit := fun _ _ => rfl

theorem adv : Statement .adv := fun _ _ => rfl

end Sys2Proof.Laws.RoundTrip
end

