-- ==== Sys2Proof/Certificates/Slice0/Obligations.lean ====
section
/-! DEFINITION. The statements for the provers. Each docstring names the rule of `spec/` it comes from. -/

open Sys2Proof Sys2Proof.Machine

/-! ## Encoding -/

/-- R82, R83, R87, R88, R97: no bit of an encoding is dropped. For every instruction and every configuration,
decoding its encoding gives it back, every operand at every value its field admits. -/
def Obligations.DecodeInvertsEncode : Prop := ∀ i : Instr, Sys2Proof.Laws.RoundTrip.Statement i

/-- R97, R82, R87: the decoder is total on command words, and `sel` alone selects the operation. -/
def Obligations.CommandWordsAllDecode : Prop :=
  ∀ (c : Config) (sel data : Nat), sel < 8 → data < 2 ^ c.dataW →
    decode c (.command (sel * 2 ^ c.dataW + data)) = .ok
      (if sel = 0 then .wrDelay data else if sel = 1 then .wrRev data
       else if sel = 2 then .wrRep data else if sel = 3 then .wrWet data
       else if sel = 4 then .wrShim data else if sel = 5 then .reservedSel5 data
       else .reservedSel67 (decide (sel = 7)) data)

/-- R81, R82, R84, R97: what a port's word decodes to is well-formed and encodes to the same word, so each
port word has one meaning. -/
def Obligations.DecodedWordsEncodeBack : Prop :=
  ∀ (c : Config) (t : Transaction) (i : Instr), decode c t = .ok i →
    WellFormed c i = true ∧ ((∀ q, t ≠ .sequencer q) → encode c i = t)

/-- R88: the micro-step of every sequencer word, `v` being either value of bit 4. -/
def Obligations.SequencerWordsSelectMicroSteps : Prop :=
  ∀ (c : Config) (q : SeqWord), decode c (.sequencer q) =
    (if q.toNat = 0x04 then .ok .rdidxF else if q.toNat = 0x14 then .ok .rdidxR
     else if q.toNat % 16 = 1 then .ok .latch else if q.toNat % 16 = 2 then .ok .acq
     else if q.toNat % 16 = 3 then .ok .store else if q.toNat % 16 = 5 then .ok .seed
     else if q.toNat % 16 = 6 then .ok .tap else if q.toNat % 16 = 7 then .ok .shim
     else if q.toNat % 16 = 8 then .ok .mix else if q.toNat % 16 = 9 then .ok .emit
     else if q.toNat % 16 = 10 then .ok .adv else if q.toNat % 16 = 0 then .error .idlePhase
     else .error (.unreachablePhase (q.toNat % 16)))

/-- R92: phase codes stop at 10, codes 11 to 15 and 0 decode to no micro-step, and a tick with PHASE not 0 is
the overrun case. -/
def Obligations.PhaseCodesAboveTenUnreachable : Prop :=
  (∀ p : Phase, p.code ≤ 10) ∧
  (∀ (c : Config) (q : SeqWord), 11 ≤ q.toNat % 16 →
    decode c (.sequencer q) = .error (.unreachablePhase (q.toNat % 16))) ∧
  (∀ (c : Config) (q : SeqWord), q.toNat % 16 = 0 → decode c (.sequencer q) = .error .idlePhase) ∧
  (∀ (s : State) (x : Nat), s.phase ≠ .idle → exec (.tick x) s = .refused .overrun)

/-- Sanity: words written out in R87, R88 and `95_test_vectors.md` decode to the instructions they stand
for. -/
def Obligations.WrittenOutWordsDecode : Prop :=
  decode Config.defaults (.command 0x007D0) = .ok (.wrDelay 2000) ∧
  decode Config.defaults (.command 0x10001) = .ok (.wrRev 1) ∧
  decode Config.defaults (.command 0x20002) = .ok (.wrRep 2) ∧
  decode Config.defaults (.command 0x30080) = .ok (.wrWet 128) ∧
  decode Config.defaults (.command 0x40100) = .ok (.wrShim 256) ∧
  decode Config.defaults (.command 0x7FFFF) = .ok (.reservedSel67 true 0xFFFF) ∧
  decode Config.defaults (.sample 0x4D2) = .ok (.tick 1234) ∧
  decode Config.defaults (.sequencer 0b10100#5) = .ok .rdidxR

/-! ## The control port and reset -/

/-- R175 to R180: a write of a legal value replaces the whole of its register and changes nothing else, at
any phase. -/
def Obligations.LegalWritesTakeEffect : Prop :=
  ∀ (s : State) (v : Nat),
    (1 ≤ v → v ≤ s.cfg.capacity - 1 → exec (.wrDelay v) s = .next { s with pDelay := v }) ∧
    (v ≤ 1 → exec (.wrRev v) s = .next { s with pRev := decide (v = 1) }) ∧
    (v ≤ 5 → exec (.wrRep v) s = .next { s with pRep := v }) ∧
    (v ≤ 2 ^ s.cfg.coefFrac → exec (.wrWet v) s = .next { s with pWet := v }) ∧
    (v ≤ 2 ^ s.cfg.coefFrac → exec (.wrShim v) s = .next { s with pShim := v })

/-- R186, R96: PSET is the five writes in register-number order, each a transition of its own, and an
invocation that latches after the k-th of them sees the first k new values and the other old ones. -/
def Obligations.PsetLatchesMixedSnapshot : Prop :=
  (∀ d rev n w h, psetInstrs d rev n w h = [.wrDelay d, .wrRev rev, .wrRep n, .wrWet w, .wrShim h]) ∧
  ((psetInstrs 2000 0 2 128 0).map (encode Config.defaults) =
    [.command 0x007D0, .command 0x10000, .command 0x20002, .command 0x30080, .command 0x40000]) ∧
  (∀ (s : State) (d rev n w h k : Nat), 1 ≤ d → d ≤ s.cfg.capacity - 1 → rev ≤ 1 → n ≤ 5 →
    w ≤ s.cfg.one → h ≤ s.cfg.one → k ≤ 5 →
    ∃ t, runInstrs ((psetInstrs d rev n w h).take k) s = .next t ∧
      exec .latch t = .next { t with
        snap := some ⟨if 1 ≤ k then d else s.pDelay, if 2 ≤ k then decide (rev = 1) else s.pRev,
          if 3 ≤ k then n else s.pRep, if 4 ≤ k then w else s.pWet, if 5 ≤ k then h else s.pShim⟩
        phase := .acq } ∧
      t = { s with
        pDelay := t.pDelay, pRev := t.pRev, pRep := t.pRep, pWet := t.pWet, pShim := t.pShim })

/-- R91: a command word whose data is outside its register's legal range is refused, and the nearest words
inside are accepted. -/
def Obligations.IllegalCommandWordsRefused : Prop :=
  ∀ (s : State), s.cfg.Legal →
    (∀ data, data < 2 ^ s.cfg.dataW →
      (∃ i, decode s.cfg (.command data) = .ok i ∧
        ((data = 0 ∨ s.cfg.capacity ≤ data) →
          exec i s = .refused (.illegalParameter .delay data)) ∧
        ((data = 1 ∨ data = s.cfg.capacity - 1) → exec i s = .next { s with pDelay := data })) ∧
      (∃ i, decode s.cfg (.command (1 * 2 ^ s.cfg.dataW + data)) = .ok i ∧
        (2 ≤ data → exec i s = .refused (.illegalParameter .rev data)) ∧
        (data = 1 → exec i s = .next { s with pRev := true })) ∧
      (∃ i, decode s.cfg (.command (2 * 2 ^ s.cfg.dataW + data)) = .ok i ∧
        (6 ≤ data → exec i s = .refused (.illegalParameter .rep data)) ∧
        (data = 5 → exec i s = .next { s with pRep := data })) ∧
      (∃ i, decode s.cfg (.command (3 * 2 ^ s.cfg.dataW + data)) = .ok i ∧
        (s.cfg.one + 1 ≤ data → exec i s = .refused (.illegalParameter .wet data)) ∧
        (data = s.cfg.one → exec i s = .next { s with pWet := data })) ∧
      (∃ i, decode s.cfg (.command (4 * 2 ^ s.cfg.dataW + data)) = .ok i ∧
        (s.cfg.one + 1 ≤ data → exec i s = .refused (.illegalParameter .shim data)) ∧
        (data = s.cfg.one → exec i s = .next { s with pShim := data })))

/-- R90, R182: a command word with a reserved register number is refused in every state, whatever its
data. -/
def Obligations.ReservedRegistersRefused : Prop :=
  ∀ (s : State) (sel data : Nat), 5 ≤ sel → sel ≤ 7 → data < 2 ^ s.cfg.dataW →
    ∃ i, decode s.cfg (.command (sel * 2 ^ s.cfg.dataW + data)) = .ok i ∧
      (i = .reservedSel5 data ∨ ∃ low, i = .reservedSel67 low data) ∧
      exec i s = .refused (.reservedRegister sel)

/-- R185, R42: RESET at any phase gives the reset state: the buffer entries the free values of a fresh draw in
`[0, FS]`, every other register at its reset value, no output emitted. What RESET does to the agenda and the
trace is the model's (log 12). -/
def Obligations.ResetGivesResetState : Prop :=
  ∀ s : State, ∃ t, exec .reset s = .next t ∧
    (∀ i, entry t i = Config.freeEntry (s.draw + 1) i % 2 ^ s.cfg.sampleW ∧ entry t i ≤ s.cfg.fs) ∧
    t.wc = 0 ∧ t.pDelay = 1 ∧ t.pRev = false ∧ t.pRep = 0 ∧ t.pWet = 0 ∧ t.pShim = 0 ∧
    t.phase = .idle ∧ t.snap = none ∧ t.x = none ∧ t.ri = none ∧ t.ei = none ∧ t.r = none ∧
    t.acc = none ∧ t.low = none ∧ t.sgn = none ∧ t.delta = none ∧ t.sh = none ∧ t.mixw = none ∧
    t.y = none ∧ t.emitted = s.emitted ∧ t.agenda = s.agenda ∧ t.cfg = s.cfg

/-- R185 corner case, V97: RESET directly after RESET is the same as one RESET, but for the number of the draw
of free buffer contents, which is the model's own field (log 3). -/
def Obligations.ResetTwiceIsResetOnce : Prop :=
  ∀ s t u : State, exec .reset s = .next t → exec .reset t = .next u →
    u = { t with draw := t.draw + 1 }

/-- R42: the state `State.reset` holds the reset values, at the default parameters. -/
def Obligations.PowerOnStateHoldsResetValues : Prop :=
  Sys2Proof.core.reset = State.reset ∧ State.reset.cfg = Config.defaults ∧
  (∀ i, entry State.reset i ≤ 4095) ∧ State.reset.wc = 0 ∧ State.reset.pDelay = 1 ∧
  State.reset.pRev = false ∧ State.reset.pRep = 0 ∧ State.reset.pWet = 0 ∧ State.reset.pShim = 0 ∧
  State.reset.phase = .idle ∧ State.reset.snap = none ∧ State.reset = clearWork State.reset ∧
  State.reset.emitted = []

/-! ## The micro-steps -/

/-- R111, R36: LATCH takes all five registers at once and changes nothing else; R41: PHASE goes to 2. -/
def Obligations.LatchTakesSnapshot : Prop :=
  ∀ s : State, exec .latch s = .next { s with
    snap := some ⟨s.pDelay, s.pRev, s.pRep, s.pWet, s.pShim⟩, phase := .acq }

/-- R112: ACQ completes in every state. It takes the sample of the transaction in progress; where there is none
the input is a free value of the port's range, which is the model's (log 13). -/
def Obligations.AcquireTakesInput : Prop :=
  ∀ s : State, ∃ v, exec .acq s = .next { s with x := some v, phase := .store } ∧
    (∀ w, s.sampleIn = some w → v = w) ∧
    (s.sampleIn = none →
      v = Config.freeInput s.draw s.emitted.length % 2 ^ s.cfg.sampleW ∧ v ≤ s.cfg.fs)

/-- R113, R54, R56: STORE changes exactly the entry at `WC`, to the raw input, and every read after it sees
it. -/
def Obligations.StoreWritesAtCursor : Prop :=
  ∀ (s : State) (v : Nat), s.x = some v → s.wc < s.cfg.capacity →
    ∃ t, exec .store s = .next t ∧ t = { s with buf := t.buf, phase := .rdidx } ∧
      entry t s.wc = v ∧ (∀ j, j ≠ s.wc → entry t j = entry s j) ∧
      (Memory.wf s.buf = true → Memory.wf t.buf = true)

/-- R114: RDIDX.F, for every legal delay and the tolerated 0, without a negative number and in range; its
corner cases. -/
def Obligations.ForwardReadIndex : Prop :=
  ∀ (s : State) (p : Snapshot), s.snap = some p → s.wc < s.cfg.capacity → p.delay < s.cfg.capacity →
    ∃ i, exec .rdidxF s = .next { s with ri := some i, phase := .seed } ∧
      i = (s.wc + s.cfg.capacity - p.delay) % s.cfg.capacity ∧ i < s.cfg.capacity ∧
      (p.delay ≤ s.wc → i = s.wc - p.delay) ∧
      (s.wc < p.delay → i = s.wc + s.cfg.capacity - p.delay) ∧
      (p.delay = s.cfg.capacity - 1 → i = (s.wc + 1) % s.cfg.capacity) ∧
      (i = s.wc ↔ p.delay = 0)

/-- R115: RDIDX.R, its wrap branch and its other branch. -/
def Obligations.ReverseReadIndex : Prop :=
  ∀ (s : State) (p : Snapshot), s.snap = some p → s.wc < s.cfg.capacity → p.delay < s.cfg.capacity →
    ∃ i, exec .rdidxR s = .next { s with ri := some i, phase := .seed } ∧ i < s.cfg.capacity ∧
      (s.wc < p.delay → i = ((s.wc + s.cfg.capacity) - p.delay) % s.cfg.capacity) ∧
      (p.delay ≤ s.wc → i = (s.wc - p.delay) % s.cfg.capacity) ∧
      (s.wc = p.delay → i = 0) ∧ (p.delay = 0 → i = s.wc)

/-- U2: a snapshot delay outside `[0, N-1]`, which no run latches, is refused by both forms. The refusal is
the treatment of `93_implementation_defined.md` U2 (log 11). -/
def Obligations.UndefinedSnapshotsRefused : Prop :=
  ∀ (s : State) (p : Snapshot), s.snap = some p →
    (s.cfg.capacity ≤ p.delay →
      exec .rdidxF s = .refused (.illegalParameter .delay p.delay) ∧
      exec .rdidxR s = .refused (.illegalParameter .delay p.delay)) ∧
    (5 < p.rep → ∀ r, s.r = some r → exec .tap s = .refused (.illegalParameter .rep p.rep)) ∧
    (s.cfg.one < p.shim → ∀ a, s.acc = some a →
      exec .shim s = .refused (.illegalParameter .shim p.shim)) ∧
    (s.cfg.one < p.wet → ∀ v h, s.x = some v → s.sh = some h →
      exec .mix s = .refused (.illegalParameter .wet p.wet))

/-- R116: the two RDIDX forms give the same outcome in every state. -/
def Obligations.ForwardAndReverseAgree : Prop := ∀ s : State, exec .rdidxR s = exec .rdidxF s

/-- R140: SEED reads the base sample at full weight and starts the taps at 1. -/
def Obligations.SeedReadsBaseSample : Prop :=
  ∀ (s : State) (i : Nat), s.ri = some i → i < s.cfg.capacity →
    exec .seed s = .next { s with acc := some (entry s i), r := some 1, phase := .tap }

/-- R141, R41: one tap while `R <= S_REP`, the index and the contribution as the rule gives them, PHASE
staying at 6; no tap and PHASE 7 once `R > S_REP`. The contribution is the configured `echoScale`, by default
`floor(2t/5)`. That the fall-through is a transition of its own is the model's (log 19). -/
def Obligations.TapAddsOneEcho : Prop :=
  ∀ (s : State) (p : Snapshot) (r : Nat), s.snap = some p → s.r = some r → p.rep ≤ 5 →
    (p.rep < r → exec .tap s = .next { s with phase := .shim }) ∧
    (∀ i a, r ≤ p.rep → s.ri = some i → s.acc = some a → 0 < s.cfg.capacity →
      exec .tap s = .next { s with
        ei := some ((i + r * p.delay) % s.cfg.capacity)
        acc := some (a + echoScale s.cfg (entry s ((i + r * p.delay) % s.cfg.capacity)))
        r := some (r + 1)
        phase := .tap }) ∧
    (s.cfg.echoTable = [] → ∀ v, echoScale s.cfg v = 2 * v / 5)

/-- R150: SHIM, and R151: what holds of its result whatever `SHIM_BITS` and `SHIM_THRESH` are. -/
def Obligations.ShimmerPerturbsBySign : Prop :=
  ∀ (s : State) (p : Snapshot) (a : Nat), s.acc = some a → s.snap = some p → p.shim ≤ s.cfg.one →
    ∃ g d h, exec .shim s = .next { s with
        low := some (a % 2 ^ s.cfg.shimBits), sgn := some g, delta := some d, sh := some h,
        phase := .mix } ∧
      (s.cfg.shimThresh < a % 2 ^ s.cfg.shimBits → g = .plus ∧ h = a + d) ∧
      (a % 2 ^ s.cfg.shimBits ≤ s.cfg.shimThresh → g = .minus ∧ h + d = a) ∧
      d = a * p.shim / s.cfg.one ∧ d ≤ a ∧ h ≤ 2 * a ∧
      (p.shim = 0 → h = a) ∧ (p.shim = s.cfg.one → d = a ∧ (h = 2 * a ∨ h = 0))

/-- R160: MIX, one rounding of the exact sum; the result lies between its inputs, at either end exactly. -/
def Obligations.MixCrossfades : Prop :=
  ∀ (s : State) (p : Snapshot) (v h : Nat), s.x = some v → s.sh = some h → s.snap = some p →
    p.wet ≤ s.cfg.one →
    ∃ m, exec .mix s = .next { s with mixw := some m, phase := .emit } ∧
      m = (v * (s.cfg.one - p.wet) + h * p.wet) / s.cfg.one ∧
      min v h ≤ m ∧ m ≤ max v h ∧ (p.wet = 0 → m = v) ∧ (p.wet = s.cfg.one → m = h)

/-- R162, R163: EMIT saturates to `[0, FS]` and hands the sample out once (R13), from every state with a value in
MIXW, beside the input of the transaction in progress. That it is paired with the free input where there is no
transaction is the model's (log 13). -/
def Obligations.EmitClampsAndHandsOut : Prop :=
  ∀ (s : State) (m : Nat), s.mixw = some m →
    ∃ v y, exec .emit s = .next { s with
        y := some y, emitted := s.emitted ++ [(v, y)], phase := .adv } ∧
      (m ≤ s.cfg.fs → y = m) ∧ (s.cfg.fs < m → y = s.cfg.fs) ∧
      (∀ w, s.sampleIn = some w → v = w) ∧ (s.sampleIn = none → v ≤ s.cfg.fs)

/-- R118: ADV moves the cursor by one modulo `N` and ends the invocation; R34: no latch and no working register
holds a value after it. -/
def Obligations.AdvanceMovesCursor : Prop :=
  ∀ s : State, ∃ t, exec .adv s = .next t ∧ t.wc = (s.wc + 1) % s.cfg.capacity ∧ t.phase = .idle ∧
    (s.wc < s.cfg.capacity → t.wc = if s.wc = s.cfg.capacity - 1 then 0 else s.wc + 1) ∧
    t = { clearWork s with wc := t.wc, phase := .idle }

/-- R34: a micro-step that reads a latch or working register which holds no value faults and names it, register
by register: each is missing alone, the registers read before it being there, whatever the others hold. That R34's "should
fault" ends the step before anything is written, and that the registers are read in this order, is the model's
(log 10). -/
def Obligations.UnwrittenRegistersFault : Prop :=
  ∀ s : State,
    (s.x = none → exec .store s = .fault (.noValue .x)) ∧
    (s.snap = none →
      exec .rdidxF s = .fault (.noValue .snap) ∧ exec .rdidxR s = .fault (.noValue .snap)) ∧
    (s.ri = none → exec .seed s = .fault (.noValue .ri)) ∧
    (s.snap = none → exec .tap s = .fault (.noValue .snap)) ∧
    (∀ p, s.snap = some p →
      (s.r = none → exec .tap s = .fault (.noValue .r)) ∧
      (∀ r, s.r = some r → r ≤ p.rep → p.rep ≤ 5 →
        (s.ri = none → exec .tap s = .fault (.noValue .ri)) ∧
        (s.ri ≠ none → s.acc = none → exec .tap s = .fault (.noValue .acc)))) ∧
    (s.acc = none → exec .shim s = .fault (.noValue .acc)) ∧
    (s.acc ≠ none → s.snap = none → exec .shim s = .fault (.noValue .snap)) ∧
    (s.x = none → exec .mix s = .fault (.noValue .x)) ∧
    (s.x ≠ none → s.sh = none → exec .mix s = .fault (.noValue .sh)) ∧
    (s.x ≠ none → s.sh ≠ none → s.snap = none → exec .mix s = .fault (.noValue .snap)) ∧
    (s.mixw = none → exec .emit s = .fault (.noValue .mixw))

/-! ## The invocation -/

/-- R110: in the atomic reading, TICK from a legal idle state answers the one next state the rule gives: the
entry at `WC`, the cursor, one emitted pair, and nothing else that persists. -/
def Obligations.TickIsOneInvocation : Prop :=
  ∀ (s : State) (x : Nat), s.Ready → x ≤ s.cfg.fs → exec (.tick x) s = .next (afterTick s x)

/-- R9, R110: in the stepped reading (log 6) the tick is the start, and ENGINE's transitions after it reach the
same state as the one atomic transition. Their count is the model's: R86 gives `9 + S_REP` micro-steps, and the
fall-through at PHASE 6 is one transition more (log 19). -/
def Obligations.SteppedInvocationEqualsAtomic : Prop :=
  ∀ (s : State) (x : Nat), s.Legal → s.phase = .idle → s.cfg.stepped = true → s.agenda = [] →
    x ≤ s.cfg.fs →
    exec (.tick x) s = .next (startInvocation x s) ∧
    Sys2Proof.core.run (10 + s.pRep) (startInvocation x s) = .next (afterTick s x)

/-- R41, R207: in the stepped reading (log 6) a tick with PHASE 0 sets PHASE to 1 and saves, masks and moves
nothing that persists. -/
def Obligations.SteppedTickOnlyStarts : Prop :=
  ∀ (s : State) (x : Nat), s.phase = .idle → s.cfg.stepped = true →
    ∃ t, exec (.tick x) s = .next t ∧ t.phase = .latch ∧ t.sampleIn = some x ∧ s.SamePersistent t

/-- R9, R36: a parameter write after LATCH commutes with every micro-step that is left, so it has the same
effect as the same write made just after the invocation. -/
def Obligations.WritesCommuteWithMicroSteps : Prop :=
  ∀ (i : Instr) (reg : ParamReg) (v : Nat) (s t : State),
    i ∈ [Instr.acq, .store, .rdidxF, .rdidxR, .seed, .tap, .shim, .mix, .emit, .adv] →
    exec i s = .next t → exec i (setParam reg v s) = .next (setParam reg v t)

/-- R32, R161: RESET and the power-on state leave the reset values in the Parameter Set, and from every legal
idle state that holds those five values, at any cursor and with any buffer, an invocation copies its input to
its output unchanged: in the atomic reading the tick does, in the stepped one (log 6) some number of ENGINE's
transitions after it. -/
def Obligations.ResetParametersPassThrough : Prop :=
  (∀ c : Config, readParams (State.resetWith c) = ⟨1, false, 0, 0, 0⟩) ∧
  (∀ s : State, ∃ t, exec .reset s = .next t ∧ readParams t = ⟨1, false, 0, 0, 0⟩) ∧
  (∀ (s : State) (x : Nat), s.Legal → s.phase = .idle → x ≤ s.cfg.fs →
    readParams s = ⟨1, false, 0, 0, 0⟩ →
    (s.cfg.stepped = false → ∃ t, exec (.tick x) s = .next t ∧ t.phase = .idle ∧
      t.emitted = s.emitted ++ [(x, x)]) ∧
    (s.cfg.stepped = true → s.agenda = [] → ∃ t k u, exec (.tick x) s = .next t ∧
      Sys2Proof.core.run k t = .next u ∧ u.phase = .idle ∧ u.emitted = s.emitted ++ [(x, x)]))

/-- R161: fully dry gives the input, fully wet gives the clamped shimmer sample. -/
def Obligations.MixBoundaries : Prop :=
  ∀ (s : State) (x : Nat), s.Legal → x ≤ s.cfg.fs →
    (s.pWet = 0 → tickOutput s x = x) ∧
    (s.pWet = s.cfg.one →
      tickOutput s x = min (shimmered s.cfg (delayedSample s x) s.pShim) s.cfg.fs)

/-- R164: the output saturates exactly when MIXW exceeds FS, what that needs, and that with no taps and no
shimmer the clamp never engages and CORE is a pure delay with crossfade. -/
def Obligations.ClampEngagesOnlyWhenNeeded : Prop :=
  ∀ (s : State) (x : Nat), s.Legal → x ≤ s.cfg.fs →
    (let b := entry (afterStore s x) (forwardIndex s.cfg.capacity s.wc s.pDelay)
     let acc := delayedSample s x
     let sh := shimmered s.cfg acc s.pShim
     let mixw := crossfade s.cfg x sh s.pWet
     (s.cfg.fs < mixw → tickOutput s x = s.cfg.fs) ∧
     (mixw ≤ s.cfg.fs → tickOutput s x = mixw) ∧
     (s.cfg.fs < mixw → s.cfg.fs < sh) ∧
     (s.cfg.fs < sh →
       (1 ≤ s.pRep ∧ s.cfg.fs < acc) ∨
       (shimSign s.cfg (lowBits s.cfg acc) = .plus ∧
         s.cfg.fs < acc + shimDelta s.cfg acc s.pShim)) ∧
     (s.pRep = 0 → acc ≤ s.cfg.fs) ∧
     (s.pRep = 0 → s.pShim = 0 →
       sh = b ∧ b ≤ s.cfg.fs ∧ mixw ≤ s.cfg.fs ∧
       tickOutput s x = (x * (s.cfg.one - s.pWet) + b * s.pWet) / s.cfg.one))

/-- R142 items a to d: the echo stage with no taps, its bounds, its monotonicity, its rounding. -/
def Obligations.EchoStageBounds : Prop :=
  ∀ (s : State) (x : Nat), s.Legal → x ≤ s.cfg.fs →
    (let b := entry (afterStore s x) (forwardIndex s.cfg.capacity s.wc s.pDelay)
     (s.pRep = 0 → delayedSample s x = b) ∧
     b ≤ delayedSample s x ∧ delayedSample s x ≤ b + s.pRep * echoScale s.cfg s.cfg.fs ∧
     delayedSample s x ≤ 3 * s.cfg.fs) ∧
    (∀ i d n, tapSum s i d n ≤ tapSum s i d (n + 1)) ∧
    (∀ (u : State) (i d n : Nat), u.Legal → u.cfg = s.cfg → (∀ j, entry s j ≤ entry u j) →
      tapSum s i d n ≤ tapSum u i d n) ∧
    (∀ i d n, 5 * tapSum s i d n ≤ 2 * rawSum s i d n ∧
      2 * rawSum s i d n ≤ 5 * tapSum s i d n + 5 * n ∧
      (1 ≤ n → 2 * rawSum s i d n < 5 * tapSum s i d n + 5 * n))

/-- R12 item e, R6: the default `echoScale` has the named properties, the default configuration is legal, and at
every legal configuration, so by those properties alone, `echoScale` is that function on `[0, FS]` (log 5). A
table of the configuration gives any function (the third clause). -/
def Obligations.EchoScaleIsDetermined : Prop :=
  (∀ c : Config, c.echoTable = [] →
    echoScale c 0 = 0 ∧ (∀ a b, a ≤ b → echoScale c a ≤ echoScale c b) ∧ (∀ t, echoScale c t ≤ t) ∧
    (∀ t, 2 * t < 5 * echoScale c t + 5 ∧ 5 * echoScale c t ≤ 2 * t)) ∧
  Config.defaults.Legal ∧
  (∀ (c : Config) (f : Nat → Nat) (t : Nat), t ≤ c.fs →
    echoScale { c with echoTable := (List.range (c.fs + 1)).map (fun a => (a, f a)) } t = f t) ∧
  (∀ c : Config, c.Legal → ∀ t, t ≤ c.fs → echoScale c t = 2 * t / 5) ∧
  (∀ f : Nat → Nat, (∀ t, 2 * t < 5 * f t + 5 ∧ 5 * f t ≤ 2 * t) → f = echoScale Config.defaults)

/-- R57: which read indices coincide with the write position, with the base and with each other. -/
def Obligations.ReadIndexCoincidences : Prop :=
  ∀ n wc d : Nat, wc < n → d < n →
    (forwardIndex n wc d = wc ↔ d = 0) ∧
    (∀ r, 1 ≤ r → echoIndex n (forwardIndex n wc d) r d = (wc + (r - 1) * d) % n) ∧
    echoIndex n (forwardIndex n wc d) 1 d = wc ∧
    (∀ r, 2 ≤ r → (echoIndex n (forwardIndex n wc d) r d = wc ↔ n ∣ (r - 1) * d)) ∧
    (∀ r, 1 ≤ r → (echoIndex n (forwardIndex n wc d) r d = forwardIndex n wc d ↔ n ∣ r * d)) ∧
    (∀ r₁ r₂, 1 ≤ r₁ → r₁ < r₂ →
      (echoIndex n (forwardIndex n wc d) r₁ d = echoIndex n (forwardIndex n wc d) r₂ d ↔
        n ∣ (r₂ - r₁) * d))

/-! ## Several invocations -/

/-- R110, R247 item a: any number of ticks with samples in range completes from a ready state, in a ready
state, one output for each input, each in `[0, FS]`, the parameters unchanged. -/
def Obligations.TicksAlwaysComplete : Prop :=
  ∀ (xs : List Nat) (s : State), s.Ready → (∀ x ∈ xs, x ≤ s.cfg.fs) →
    ∃ t, runTicks xs s = .next t ∧ t.Ready ∧ readParams t = readParams s ∧
      ∃ ys, ys.length = xs.length ∧ t.emitted = s.emitted ++ xs.zip ys ∧ ∀ y ∈ ys, y ≤ s.cfg.fs

/-- R118: the cursor counts the invocations modulo `N`, whatever the inputs. -/
def Obligations.CursorCountsInvocations : Prop :=
  ∀ (xs : List Nat) (s : State), s.Ready → (∀ x ∈ xs, x ≤ s.cfg.fs) →
    ∃ t, runTicks xs s = .next t ∧ t.wc = (s.wc + xs.length) % s.cfg.capacity

/-- R58, R113, R118: after a run of ticks the last `N` inputs stand in the buffer, each where the cursor was,
and an entry the cursor did not pass is unchanged. -/
def Obligations.BufferHoldsInputHistory : Prop :=
  ∀ (xs : List Nat) (s : State), s.Ready → (∀ x ∈ xs, x ≤ s.cfg.fs) →
    ∃ t, runTicks xs s = .next t ∧
      (∀ j, j < xs.length → xs.length ≤ j + s.cfg.capacity →
        xs[j]? = some (entry t ((s.wc + j) % s.cfg.capacity))) ∧
      (∀ i, (∀ j, j < xs.length → (s.wc + j) % s.cfg.capacity ≠ i) → entry t i = entry s i)

/-- R58, R161, R164: with no taps, no shimmer and the blend fully wet, the output lags the input by exactly
the delay length, once that many inputs have come. -/
def Obligations.PureDelayLine : Prop :=
  ∀ (xs : List Nat) (s : State), s.Ready → (∀ x ∈ xs, x ≤ s.cfg.fs) →
    s.pRep = 0 → s.pShim = 0 → s.pWet = s.cfg.one →
    ∃ t, runTicks xs s = .next t ∧
      ∀ k, s.pDelay ≤ k → k < xs.length →
        (outputs t)[s.emitted.length + k]? = xs[k - s.pDelay]?

/-- R142 item g, R58: once the buffer has been filled, the accumulated delayed sample in terms of the input
history: the input `d` ticks ago, plus each scaled tap at its lag, tap 1 being the current input. -/
def Obligations.EchoesFollowInputHistory : Prop :=
  ∀ (xs : List Nat) (x : Nat) (s : State), s.Ready → (∀ y ∈ xs, y ≤ s.cfg.fs) → x ≤ s.cfg.fs →
    s.cfg.capacity - 1 ≤ xs.length →
    ∃ t, runTicks xs s = .next t ∧
      delayedSample t x = (xs ++ [x]).getD (xs.length - s.pDelay) 0 +
        ((List.range s.pRep).map fun q =>
          echoScale s.cfg ((xs ++ [x]).getD
            (xs.length - tapLag s.cfg.capacity s.pDelay (q + 1)) 0)).sum

/-- R116: the playback mode has no effect on any output or on any other persistent state, for every number of
repeats. -/
def Obligations.ReverseModeHasNoEffect : Prop :=
  ∀ (xs : List Nat) (s : State), s.Ready → (∀ x ∈ xs, x ≤ s.cfg.fs) →
    ∃ t, runTicks xs s = .next t ∧
      runTicks xs { s with pRev := !s.pRev } = .next { t with pRev := !s.pRev }

/-- R236: from the `N`-th invocation on, no output depends on what the buffer held before: two runs that
differ only in the buffer and the draw of its free contents give the same outputs from there on. -/
def Obligations.OutputsForgetInitialBuffer : Prop :=
  ∀ (xs : List Nat) (s u : State), s.Ready → u.Legal → u = { s with buf := u.buf, draw := u.draw } →
    (∀ x ∈ xs, x ≤ s.cfg.fs) →
    ∃ t v, runTicks xs s = .next t ∧ runTicks xs u = .next v ∧
      (outputs t).drop (s.emitted.length + (s.cfg.capacity - 1)) =
        (outputs v).drop (s.emitted.length + (s.cfg.capacity - 1))

/-! ## Frames and ownership -/

/-- R33, R60: the frame of the micro-steps that only compute (LATCH, ACQ, RDIDX.F, RDIDX.R, SEED, TAP, SHIM,
MIX): everything that persists is unchanged, every buffer entry among it. -/
def Obligations.ComputingStepsKeepPersistentState : Prop :=
  ∀ (i : Instr) (s t : State),
    i ∈ [Instr.latch, .acq, .rdidxF, .rdidxR, .seed, .tap, .shim, .mix] → exec i s = .next t →
    s.SamePersistent t ∧ ∀ j, entry t j = entry s j

/-- R25, R180, R210: the five parameter registers are written by the five WR.* and RESET only; a WR.* writes
one of them and nothing else, so no buffer entry, not the cursor and no latch. -/
def Obligations.OnlyControlWritesParameters : Prop :=
  (∀ (i : Instr) (s t : State), exec i s = .next t → readParams t ≠ readParams s →
    i = .reset ∨ (∃ v, i = .wrDelay v) ∨ (∃ v, i = .wrRev v) ∨ (∃ v, i = .wrRep v) ∨
      (∃ v, i = .wrWet v) ∨ (∃ v, i = .wrShim v)) ∧
  (∀ (v : Nat) (i : Instr) (s t : State),
    i ∈ [Instr.wrDelay v, .wrRev v, .wrRep v, .wrWet v, .wrShim v] → exec i s = .next t →
    t = { s with pDelay := t.pDelay, pRev := t.pRev, pRep := t.pRep, pWet := t.pWet, pShim := t.pShim } ∧
    ∀ j, entry t j = entry s j)

/-- R21, R23, R60, R110: the buffer changes by STORE, by the STORE of a TICK and by RESET only, and then at the
cursor only; the cursor by ADV, by the ADV of a TICK and by RESET only, by one modulo `N`. -/
def Obligations.BufferAndCursorOwnership : Prop :=
  ∀ (i : Instr) (s t : State), exec i s = .next t → i ≠ .reset →
    (t.buf ≠ s.buf → i = .store ∨ ∃ x, i = .tick x) ∧
    (∀ j, j ≠ s.wc → entry t j = entry s j) ∧
    (t.wc ≠ s.wc → (i = .adv ∨ ∃ x, i = .tick x) ∧ t.wc = (s.wc + 1) % s.cfg.capacity) ∧
    t.draw = s.draw

/-- R162, R163, R185: an output is emitted by EMIT and by the EMIT of a TICK only, one at a time, in
`[0, FS]`; RESET emits none. -/
def Obligations.OnlyEmitHandsOut : Prop :=
  ∀ (i : Instr) (s t : State), exec i s = .next t →
    t.emitted = s.emitted ∨
    ((i = .emit ∨ ∃ x, i = .tick x) ∧
      ∃ v y, t.emitted = s.emitted ++ [(v, y)] ∧ y ≤ s.cfg.fs ∧ ∀ x, i = .tick x → v = x)

/-- R6, R21: no step changes the configuration, so neither the buffer's size nor any width. -/
def Obligations.StepsKeepConfiguration : Prop :=
  ∀ s t : State, step s = .next t → t.cfg = s.cfg

/-! ## The step -/

/-- R97: a step runs the decoded operation. A sample, a command word or a reset that stands first in the agenda
is decoded and executed in the state without that event; with ENGINE's turn, or no event left, the micro-step
of `{S_REV, PHASE}` is. The agenda is the model's (log 7). -/
def Obligations.StepRunsDecodedOperation : Prop :=
  (∀ (s : State) (rest : List Turn) (w : Nat) (b : Bool) (i : Instr), s.phase ≠ .latch →
    s.agenda = .ports ⟨false, none, some w, b⟩ :: rest → decode s.cfg (.sample w) = .ok i →
    step s = exec i { s with agenda := rest }) ∧
  (∀ (s : State) (rest : List Turn) (w : Nat) (b : Bool) (i : Instr), s.phase ≠ .latch →
    s.agenda = .ports ⟨false, some w, none, b⟩ :: rest → decode s.cfg (.command w) = .ok i →
    step s = exec i { s with agenda := rest }) ∧
  (∀ (s : State) (rest : List Turn) (a : Arrival), s.agenda = .ports a :: rest → a.rst = true →
    step s = exec .reset { s with agenda := rest }) ∧
  (∀ (s : State) (rest : List Turn) (i : Instr), s.phase ≠ .idle →
    decode s.cfg (.sequencer (seqWord s)) = .ok i →
    (s.agenda = [] → step s = exec i s) ∧
    (s.agenda = .engine :: rest → step s = exec i { s with agenda := rest })) ∧
  (∀ s : State, (seqWord s).toNat % 16 = s.phase.code ∧
    ∀ p, s.snap = some p → ((seqWord s).toNat / 16 = if p.rev then 1 else 0))

/-- R206, R62: reset wins over a coinciding tick and write, both discarded; a coinciding tick and write are
taken one after the other, in either order. -/
def Obligations.CoincidingEventsOrdered : Prop :=
  ∀ (s : State) (rest : List Turn) (a : Arrival) (w v : Nat) (i j : Instr), s.phase ≠ .latch →
    s.agenda = .ports a :: rest → a.cmd = some w → a.tick = some v →
    decode s.cfg (.command w) = .ok i → decode s.cfg (.sample v) = .ok j →
    (a.rst = true → step s = .next (resetState { s with agenda := rest })) ∧
    (a.rst = false → a.tickFirst = true →
      step s = exec j { s with agenda := .ports { a with tick := none } :: rest }) ∧
    (a.rst = false → a.tickFirst = false →
      step s = exec i { s with agenda := .ports { a with cmd := none } :: rest })

/-- At PHASE = 1 ENGINE latches before any port but reset is served. The order is the model's reading of R61
and R111 (log 9). -/
def Obligations.LatchPrecedesPorts : Prop :=
  ∀ (s : State) (rest : List Turn) (a : Arrival), s.phase = .latch → s.agenda = .ports a :: rest →
    a.rst = false → step s = exec .latch s

/-- R205: with no event left and no invocation in progress nothing changes, and ENGINE's turn then only passes
(the agenda is the model's, log 7). That there is a step at all is the model's too: a stutter step that answers
the same state (log 21), where the spec says that idling is no operation and ENGINE simply has no step (R187). -/
def Obligations.IdleMachineHolds : Prop :=
  ∀ (s : State) (rest : List Turn), s.phase = .idle →
    (s.agenda = [] → step s = .next s) ∧
    (s.agenda = .engine :: rest → step s = .next { s with agenda := rest })

/-- A table row's word placed by `withFetchWord` is what the very next step runs, with the persistent state
unchanged. The placing is the model's (log 15). -/
def Obligations.PlacedWordRunsNext : Prop :=
  ∀ (s : State) (nbits w : Nat) (tr : Transaction) (i : Instr),
    tableTransaction nbits w = some tr → decode s.cfg tr = .ok i →
    ∃ u, step (s.withFetchWord nbits w) = exec i u ∧ s.SamePersistent u

/-! ## Invariants -/

/-- R42, R247 item a: the state after power-on reset meets the invariant, at every legal configuration. -/
def Obligations.ResetMeetsInvariant : Prop := ∀ c : Config, c.Legal → (State.resetWith c).Inv

/-- R20, R23, R34, R247 item a: every step from a state of the invariant that answers a next state answers one
of the invariant: legal persistent state, and in each register of an invocation a value in its range from the
step that writes it to ADV. -/
def Obligations.StepKeepsInvariant : Prop := ∀ s t : State, s.Inv → step s = .next t → t.Inv

/-- R200, R34, R55: no step from a state of the invariant faults: no register is read before it is written and
no index outside the buffer is formed. -/
def Obligations.NoFaultUnderInvariant : Prop := ∀ (s : State) (f : Fault), s.Inv → step s ≠ .fault f

/-- R200, R201, R247: from a state of the invariant, when the next event keeps the host contract, the step
answers a next state: the only refusals are the contract's violations. -/
def Obligations.ContractStepsComplete : Prop :=
  ∀ s : State, s.Inv → s.KeepsContract → ∃ t, step s = .next t

/-- R7: the derived widths hold every value the rules produce, in every register, latch and index sum, and in the
mix numerator. -/
def Obligations.DerivedWidthsSuffice : Prop :=
  ∀ s : State, s.Inv →
    s.wc < 2 ^ s.cfg.idxW ∧ s.pDelay < 2 ^ s.cfg.dataW ∧ s.pRep < 2 ^ 3 ∧
    s.pWet < 2 ^ (s.cfg.coefFrac + 1) ∧ s.pShim < 2 ^ (s.cfg.coefFrac + 1) ∧
    (∀ p, s.snap = some p → p.delay < 2 ^ s.cfg.dataW ∧ p.delay < 2 ^ s.cfg.idxW ∧ p.rep < 2 ^ 3 ∧
      p.wet < 2 ^ (s.cfg.coefFrac + 1) ∧ p.shim < 2 ^ (s.cfg.coefFrac + 1)) ∧
    (∀ v, s.sampleIn = some v → v < 2 ^ s.cfg.sampleW) ∧
    (∀ v, s.low = some v → v < 2 ^ s.cfg.shimBits) ∧ s.phase.code < 2 ^ 4 ∧ s.pDelay < 2 ^ s.cfg.idxW ∧
    (∀ v, s.x = some v → v < 2 ^ s.cfg.sampleW) ∧ (∀ i, s.ri = some i → i < 2 ^ s.cfg.idxW) ∧
    (∀ i, s.ei = some i → i < 2 ^ s.cfg.idxW) ∧ (∀ r, s.r = some r → r < 2 ^ 3) ∧
    (∀ i p r, s.ri = some i → s.snap = some p → r ≤ p.rep → i + r * p.delay < 2 ^ (s.cfg.idxW + 3)) ∧
    (∀ a, s.acc = some a → a ≤ 3 * s.cfg.fs ∧ a < 2 ^ s.cfg.accW) ∧
    (∀ d, s.delta = some d → d < 2 ^ s.cfg.accW) ∧ (∀ h, s.sh = some h → h < 2 ^ s.cfg.shW) ∧
    (∀ v h p, s.x = some v → s.sh = some h → s.snap = some p →
      v * (s.cfg.one - p.wet) + h * p.wet < 2 ^ s.cfg.mixW) ∧
    (∀ m, s.mixw = some m → m < 2 ^ s.cfg.shW) ∧ (∀ y, s.y = some y → y < 2 ^ s.cfg.sampleW)
end

