-- ==== Sys2Proof/Laws/Meanings.lean ====
section
/-! SUPPORT. Everything each meaning can do when it answers a next state, and when it does. -/

namespace Sys2Proof.Machine

open Sys2Proof

theorem execLatch_eq_next {s t : State} :
    execLatch s = .next t ↔ t = { s with snap := some (readParams s), phase := .acq } := by
  simp only [execLatch, next_eq_next]

theorem execAcq_eq_next {s t : State} :
    execAcq s = .next t ↔
      t = { s with x := some (sampleInput s), phase := .store } := by
  simp only [execAcq, next_eq_next]

theorem execStore_eq_next {s t : State} :
    execStore s = .next t ↔
      ∃ v, s.x = some v ∧ s.wc < s.cfg.capacity ∧
        t = { s with buf := memWrite s.buf s.wc v, phase := .rdidx } := by
  simp only [execStore, need_eq_next, atEntry_eq_next, next_eq_next]

theorem setReadIndex_eq_next {f : Nat → Nat → Nat → Nat} {s t : State} :
    setReadIndex f s = .next t ↔
      ∃ p, s.snap = some p ∧ p.delay < s.cfg.capacity ∧
        t = { s with ri := some (f s.cfg.capacity s.wc p.delay), phase := .seed } := by
  simp only [setReadIndex, need_eq_next]
  refine exists_congr fun p => and_congr_right fun _ => ?_
  by_cases h : p.delay < s.cfg.capacity <;> simp [delayDefined, h, eq_comm (b := t)]

theorem execSeed_eq_next {s t : State} :
    execSeed s = .next t ↔
      ∃ i, s.ri = some i ∧ i < s.cfg.capacity ∧
        t = { s with acc := some (entry s i), r := some 1, phase := .tap } := by
  simp only [execSeed, need_eq_next, atEntry_eq_next, next_eq_next]

theorem execTap_eq_next {s t : State} :
    execTap s = .next t ↔
      ∃ p r, s.snap = some p ∧ s.r = some r ∧ p.rep ≤ Config.maxRepeats ∧
        ((p.rep < r ∧ t = { s with phase := .shim }) ∨
         (r ≤ p.rep ∧ ∃ i a, s.ri = some i ∧ s.acc = some a ∧
            echoIndex s.cfg.capacity i r p.delay < s.cfg.capacity ∧
            t = { s with
              ei := some (echoIndex s.cfg.capacity i r p.delay)
              acc := some (a + echoScale s.cfg (entry s (echoIndex s.cfg.capacity i r p.delay)))
              r := some (r + 1)
              phase := .tap })) := by
  simp only [execTap, need_eq_next, performTap]
  constructor
  · rintro ⟨p, hp, r, hr, h⟩
    refine ⟨p, r, hp, hr, ?_⟩
    by_cases hrep : p.rep ≤ Config.maxRepeats
    · by_cases hdue : r ≤ p.rep
      · simp [repDefined, hrep, tapDue, hdue, need_eq_next, atEntry_eq_next] at h
        obtain ⟨i, hi, a, ha, hlt, ht⟩ := h
        exact ⟨hrep, .inr ⟨hdue, i, a, hi, ha, hlt, ht.symm⟩⟩
      · simp [repDefined, hrep, tapDue, hdue] at h
        exact ⟨hrep, .inl ⟨by omega, h.symm⟩⟩
    · simp [repDefined, hrep] at h
  · rintro ⟨p, r, hp, hr, hrep, ⟨hlt, rfl⟩ | ⟨hle, i, a, hi, ha, hlt, rfl⟩⟩
    · refine ⟨p, hp, r, hr, ?_⟩
      have : ¬ r ≤ p.rep := by omega
      simp [repDefined, hrep, tapDue, this]
    · refine ⟨p, hp, r, hr, ?_⟩
      simp [repDefined, hrep, tapDue, hle, hi, ha, atEntry, hlt]

theorem execShim_eq_next {s t : State} :
    execShim s = .next t ↔
      ∃ a p, s.acc = some a ∧ s.snap = some p ∧ p.shim ≤ s.cfg.one ∧
        t = { s with
          low := some (lowBits s.cfg a)
          sgn := some (shimSign s.cfg (lowBits s.cfg a))
          delta := some (shimDelta s.cfg a p.shim)
          sh := some (shimApply (shimSign s.cfg (lowBits s.cfg a)) a (shimDelta s.cfg a p.shim))
          phase := .mix } := by
  simp only [execShim, need_eq_next]
  constructor
  · rintro ⟨a, ha, p, hp, h⟩
    by_cases hk : p.shim ≤ s.cfg.one <;> simp [coefDefined, hk] at h
    exact ⟨a, p, ha, hp, hk, h.symm⟩
  · rintro ⟨a, p, ha, hp, hk, rfl⟩
    exact ⟨a, ha, p, hp, by simp [coefDefined, hk]⟩

theorem execMix_eq_next {s t : State} :
    execMix s = .next t ↔
      ∃ v h p, s.x = some v ∧ s.sh = some h ∧ s.snap = some p ∧ p.wet ≤ s.cfg.one ∧
        t = { s with mixw := some (crossfade s.cfg v h p.wet), phase := .emit } := by
  simp only [execMix, need_eq_next]
  constructor
  · rintro ⟨v, hv, h, hh, p, hp, ht⟩
    by_cases hk : p.wet ≤ s.cfg.one <;> simp [coefDefined, hk] at ht
    exact ⟨v, h, p, hv, hh, hp, hk, ht.symm⟩
  · rintro ⟨v, h, p, hv, hh, hp, hk, rfl⟩
    exact ⟨v, hv, h, hh, p, hp, by simp [coefDefined, hk]⟩

theorem execEmit_eq_next {s t : State} :
    execEmit s = .next t ↔
      ∃ m, s.mixw = some m ∧
        t = { s with
          y := some (outputOf s.cfg m)
          emitted := s.emitted ++ [(sampleInput s, outputOf s.cfg m)]
          phase := .adv } := by
  simp only [execEmit, need_eq_next, next_eq_next, sampleOut]

theorem execAdv_eq_next {s t : State} :
    execAdv s = .next t ↔
      t = { clearWork s with wc := (s.wc + 1) % s.cfg.capacity, phase := .idle } := by
  simp only [execAdv, next_eq_next]

theorem execReset_eq_next {s t : State} : execReset s = .next t ↔ t = resetState s := by
  simp only [execReset, next_eq_next]

/-- TICK answers a next state from an idle state only, by one of the two readings of R9. -/
theorem execTick_eq_next {x : Nat} {s t : State} :
    execTick x s = .next t ↔
      s.phase = .idle ∧
        ((s.cfg.stepped = true ∧ t = startInvocation x s) ∨
         (s.cfg.stepped = false ∧ runInvocation (startInvocation x s) = .next t)) := by
  unfold execTick
  by_cases hp : s.phase = .idle <;> cases hc : s.cfg.stepped <;> simp [hp, eq_comm (b := t)]

/-- The parts of an invocation, one after the other (R86). -/
theorem runInvocation_eq_next {s t : State} :
    runInvocation s = .next t ↔
      ∃ a b c d e f g h k, execLatch s = .next a ∧ execAcq a = .next b ∧ execStore b = .next c ∧
        selectReadIndex c = .next d ∧ execSeed d = .next e ∧
        tapLoop (Config.maxRepeats + 1) e = .next f ∧ execShim f = .next g ∧
        execMix g = .next h ∧ execEmit h = .next k ∧ execAdv k = .next t := by
  simp only [runInvocation, andThen_eq_next]
  constructor
  · rintro ⟨a, ha, b, hb, c, hc, d, hd, e, he, f, hf, g, hg, h, hh, k, hk, ht⟩
    exact ⟨a, b, c, d, e, f, g, h, k, ha, hb, hc, hd, he, hf, hg, hh, hk, ht⟩
  · rintro ⟨a, b, c, d, e, f, g, h, k, ha, hb, hc, hd, he, hf, hg, hh, hk, ht⟩
    exact ⟨a, ha, b, hb, c, hc, d, hd, e, he, f, hf, g, hg, h, hh, k, hk, ht⟩

end Sys2Proof.Machine
end

