-- ==== Sys2Proof/Laws/Step.lean ====
section
/-! SUPPORT. Everything one step can do, once: what `fetch` chooses, what a command word decodes to, and what
a step that answers a next state has done. -/

namespace Sys2Proof.Machine

open Sys2Proof

/-- Outside IDLE the sequencer word of the state decodes to the micro-step of its phase (R85, R88). -/
theorem decode_seqWord {s : State} (h : s.phase ≠ .idle) :
    ∃ rev i, microStep rev s.phase = some i ∧ decode s.cfg (.sequencer (seqWord s)) = .ok i := by
  obtain ⟨i, hi⟩ := Option.isSome_iff_exists.1
    ((microStep_isSome (match s.snap with | some p => p.rev | none => false) s.phase).2 h)
  exact ⟨_, i, hi, decodeSequencer_seqWordOf _ _ _ hi⟩

/-- Whatever the event, `fetch` changes the agenda only, and hands out a port's word that the event holds or
the sequencer word (R97, R206). -/
theorem fetch_cases (s : State) : ∃ r,
    fetch s = .nothing (withAgenda r s) ∨
    (s.phase ≠ .idle ∧ fetch s = .word (.sequencer (seqWord s)) (withAgenda r s)) ∨
    fetch s = .word (.resetLine true) (withAgenda r s) ∨
    (∃ a rest w, s.agenda = .ports a :: rest ∧ a.rst = false ∧ a.cmd = some w ∧
      fetch s = .word (.command w) (withAgenda r s)) ∨
    (∃ a rest w, s.agenda = .ports a :: rest ∧ a.rst = false ∧ a.tick = some w ∧
      fetch s = .word (.sample w) (withAgenda r s)) := by
  have engine : ∀ r, engineMove (withAgenda r s) = .nothing (withAgenda r s) ∨
      (s.phase ≠ .idle ∧
        engineMove (withAgenda r s) = .word (.sequencer (seqWord s)) (withAgenda r s)) := by
    intro r
    unfold engineMove
    split
    case isTrue => exact .inl rfl
    case isFalse h => exact .inr ⟨h, rfl⟩
  have same : withAgenda s.agenda s = s := rfl
  cases ha : s.agenda with
  | nil =>
    have h : fetch s = engineMove (withAgenda s.agenda s) := by rw [same]; simp [fetch, ha]
    exact ⟨s.agenda, by rw [h]; exact (engine _).imp id .inl⟩
  | cons turn rest =>
    cases turn with
    | engine =>
      have h : fetch s = engineMove (withAgenda rest s) := by simp [fetch, ha]
      exact ⟨rest, by rw [h]; exact (engine _).imp id .inl⟩
    | ports a =>
      cases hr : a.rst
      case true => exact ⟨rest, .inr (.inr (.inl (by simp [fetch, ha, hr])))⟩
      case false =>
        by_cases hp : s.phase = .latch
        · have h : fetch s = engineMove (withAgenda s.agenda s) := by
            rw [same]; simp [fetch, ha, hr, hp]
          exact ⟨s.agenda, by rw [h]; exact (engine _).imp id .inl⟩
        · have h : fetch s = portWord a rest s := by simp [fetch, ha, hr, hp]
          rw [h]
          cases hc : a.cmd <;> cases ht : a.tick
          · exact ⟨rest, .inl (by simp [portWord, hc, ht])⟩
          · exact ⟨rest, .inr (.inr (.inr (.inr
              ⟨a, rest, _, rfl, hr, ht, by simp [portWord, hc, ht]⟩)))⟩
          · exact ⟨rest, .inr (.inr (.inr (.inl
              ⟨a, rest, _, rfl, hr, hc, by simp [portWord, hc, ht]⟩)))⟩
          · cases hf : a.tickFirst
            · exact ⟨_, .inr (.inr (.inr (.inl
                ⟨a, rest, _, rfl, hr, hc, by simp [portWord, hc, ht, hf]; rfl⟩)))⟩
            · exact ⟨_, .inr (.inr (.inr (.inr
                ⟨a, rest, _, rfl, hr, ht, by simp [portWord, hc, ht, hf]; rfl⟩)))⟩

/-- A command word is one of the five writes or a reserved word (R90, R97). -/
theorem decode_command_cases {c : Config} {w : Nat} {i : Instr} (h : decode c (.command w) = .ok i) :
    (∃ reg v, ∀ s, exec i s = writeParam reg v s) ∨
    (∃ sel, ∀ s, exec i s = .refused (.reservedRegister sel)) := by
  rw [decode] at h
  split at h
  case isFalse => simp at h
  case isTrue =>
    simp only [Except.ok.injEq] at h
    subst h
    unfold commandInstr
    split
    · exact .inl ⟨.delay, _, fun _ => rfl⟩
    · exact .inl ⟨.rev, _, fun _ => rfl⟩
    · exact .inl ⟨.rep, _, fun _ => rfl⟩
    · exact .inl ⟨.wet, _, fun _ => rfl⟩
    · exact .inl ⟨.shim, _, fun _ => rfl⟩
    · exact .inr ⟨_, fun _ => rfl⟩
    · exact .inr ⟨_, fun _ => rfl⟩
    · exact .inr ⟨_, fun _ => rfl⟩

/-- What a step that answers a next state has done: passed an event, performed the micro-step of the phase,
reset, written a legal value, or taken a tick of a sample in range. -/
theorem step_cases {s t : State} (h : step s = .next t) : ∃ r,
    t = withAgenda r s ∨
    (∃ rev i, microStep rev s.phase = some i ∧ exec i (withAgenda r s) = .next t) ∨
    t = resetState (withAgenda r s) ∨
    (∃ reg v, paramLegal s.cfg reg v = true ∧ t = setParam reg v (withAgenda r s)) ∨
    (∃ x, x ≤ s.cfg.fs ∧ exec (.tick x) (withAgenda r s) = .next t) := by
  obtain ⟨r, hf⟩ := fetch_cases s
  have hcfg : (withAgenda r s).cfg = s.cfg := rfl
  refine ⟨r, ?_⟩
  rcases hf with hf | ⟨hp, hf⟩ | hf | ⟨a, rest, w, -, -, -, hf⟩ | ⟨a, rest, w, -, -, -, hf⟩ <;>
    rw [step, hf] at h <;> simp only [hcfg] at h
  · exact .inl (next_eq_next.1 h)
  · obtain ⟨rev, i, hi, hd⟩ := decode_seqWord hp
    rw [hd] at h
    exact .inr (.inl ⟨rev, i, hi, h⟩)
  · exact .inr (.inr (.inl (execReset_eq_next.1 h)))
  · split at h
    case h_2 => simp at h
    case h_1 i hd =>
      rcases decode_command_cases hd with ⟨reg, v, hw⟩ | ⟨sel, hw⟩
      · rw [hw, writeParam_eq_next] at h
        exact .inr (.inr (.inr (.inl ⟨reg, v, h⟩)))
      · rw [hw] at h
        simp at h
  · simp only [decode] at h
    split at h
    case h_2 => simp at h
    case h_1 i hd =>
      split at hd
      case isFalse => simp at hd
      case isTrue hw =>
        simp only [Except.ok.injEq] at hd
        subst hd
        exact .inr (.inr (.inr (.inr ⟨w, Nat.le_sub_one_of_lt hw, h⟩)))

end Sys2Proof.Machine
end

