-- ==== Sys2Proof/Laws/Tick.lean ====
section
/-! SUPPORT. The echo loop of an invocation, once (`spec/41_echo.md` R141). -/

namespace Sys2Proof.Machine

open Sys2Proof

/-- The tap sum depends on the buffer, the draw and the configuration only. -/
theorem tapSum_congr (s t : State) (hb : t.buf = s.buf) (hd : t.draw = s.draw) (hc : t.cfg = s.cfg)
    (i d n : Nat) : tapSum t i d n = tapSum s i d n := by
  induction n with
  | zero => rfl
  | succ n ih => simp only [tapSum, ih, entry_congr s t hb hd hc, hc]

/-- From tap `k` on, with the sum of the earlier taps in `ACC`, the loop adds every tap that is left and ends
at PHASE 7 (R41, R141 item d). -/
theorem tapLoop_adds (fuel : Nat) : ∀ (s : State) (p : Snapshot) (k i b : Nat),
    s.phase = .tap → s.snap = some p → s.r = some (k + 1) → s.ri = some i →
    s.acc = some (b + tapSum s i p.delay k) → k ≤ p.rep → p.rep ≤ Config.maxRepeats →
    0 < s.cfg.capacity → p.rep < k + fuel →
    ∃ e, tapLoop fuel s = .next { s with
      ei := e, acc := some (b + tapSum s i p.delay p.rep), r := some (p.rep + 1),
      phase := .shim } := by
  induction fuel with
  | zero => intro s p k i b _ _ _ _ _ hk _ _ hf; omega
  | succ fuel ih =>
    intro s p k i b hph hp hr hi ha hk hrep hpos hf
    rw [tapLoop, hph]
    by_cases hlast : k = p.rep
    · refine ⟨s.ei, ?_⟩
      have : execTap s = .next { s with phase := .shim } :=
        execTap_eq_next.2 ⟨p, k + 1, hp, hr, hrep, .inl ⟨by omega, rfl⟩⟩
      simp only [this, andThen_next]
      cases fuel <;> simp only [tapLoop] <;> rw [← hlast, ← hr, ← ha]
    · obtain ⟨u, hu⟩ : ∃ u : State, u = { s with
          ei := some (echoIndex s.cfg.capacity i (k + 1) p.delay)
          acc := some (b + tapSum s i p.delay (k + 1))
          r := some (k + 2)
          phase := .tap } := ⟨_, rfl⟩
      have hstep : execTap s = .next u :=
        execTap_eq_next.2 ⟨p, k + 1, hp, hr, hrep,
          .inr ⟨by omega, i, _, hi, ha, Nat.mod_lt _ hpos, by
            simp only [hu, tapSum, echoIndex, Nat.add_assoc]⟩⟩
      have hsum : ∀ n, tapSum u i p.delay n = tapSum s i p.delay n :=
        tapSum_congr s u (by rw [hu]) (by rw [hu]) (by rw [hu]) i p.delay
      obtain ⟨e, he⟩ := ih u p (k + 1) i b (by rw [hu]) (by rw [hu]; exact hp) (by rw [hu])
        (by rw [hu]; exact hi) (by rw [hsum, hu]) (by omega) hrep (by rw [hu]; exact hpos) (by omega)
      refine ⟨e, ?_⟩
      simp only [hstep, andThen_next, he, hsum]
      rw [hu]

end Sys2Proof.Machine
end

