-- ==== Sys2Proof/Tests/Slice0.lean ====
section
/-! SUPPORT. Tests of the model and, for every statement with hypotheses, a witness that meets them.

Expected results come from `spec/95_test_vectors.md` (V1 to V98, P1 to P6), from the examples of the rules, or
from the encodings of `spec/30_encoding.md` written out bit by bit. -/

namespace Sys2Proof.Tests

open Sys2Proof Sys2Proof.Machine

/-! ## Helpers -/

/-- A field of the next state, if there is one. -/
def seen {α : Type} (r : StepResult) (f : State → α) : Option α :=
  match r with
  | .next s => some (f s)
  | _ => none

/-- The refusal, if there is one. -/
def refusal (r : StepResult) : Option Refusal :=
  match r with
  | .refused q => some q
  | _ => none

/-- The fault, if there is one. -/
def fault (r : StepResult) : Option Fault :=
  match r with
  | .fault f => some f
  | _ => none

/-- The defaults of R6 with the small capacity of the programs P2 to P6. -/
def small (stepped : Bool) : Config := { Config.defaults with capacity := 8, stepped := stepped }

/-- Eight written entries, so that no test reads a free value. -/
def full (v : Nat) : Memory :=
  [(0, v), (1, v), (2, v), (3, v), (4, v), (5, v), (6, v), (7, v)]

/-- A state after reset with every entry `v`. -/
def ready (stepped : Bool) (v : Nat) : State :=
  { State.resetWith (small stepped) with buf := full v }

/-- The start state of V1. -/
def scenario : State :=
  { State.reset with
    buf := [(3000, 4000), (5000, 2000), (7000, 0)], wc := 5000, pDelay := 2000, pRep := 2, pWet := 128 }

/-- A state with a cursor and a snapshot delay, for the vectors of RDIDX. -/
def atIndex (n wc d : Nat) : State :=
  { State.resetWith { Config.defaults with capacity := n } with
    wc := wc, phase := .rdidx, snap := some ⟨d, false, 0, 0, 0⟩ }

/-- A state with an accumulator and a snapshot depth, for the vectors of SHIM. -/
def atShim (acc shim : Nat) : State :=
  { State.reset with phase := .shim, acc := some acc, snap := some ⟨1, false, 0, 0, shim⟩ }

/-- What SHIM writes. -/
def shimResult (s : State) : Option Nat × Option Sign × Option Nat × Option Nat :=
  (s.low, s.sgn, s.delta, s.sh)

/-- A state with the inputs of MIX, for its vectors. -/
def atMix (x sh wet : Nat) : State :=
  { State.reset with
    phase := .mix, x := some x, sh := some sh, snap := some ⟨1, false, 0, wet, 0⟩ }

/-- A state with the input of EMIT, for its vectors. -/
def atEmit (m : Nat) : State :=
  { State.reset with phase := .emit, mixw := some m, sampleIn := some 0 }

/-! ## Well-formedness: an ill-formed term for each check -/

theorem test_wellformed_refuses :
    WellFormed Config.defaults (.tick 4096) = false ∧
    WellFormed Config.defaults (.wrDelay 65536) = false ∧
    WellFormed Config.defaults (.wrRev 65536) = false ∧
    WellFormed Config.defaults (.wrRep 65536) = false ∧
    WellFormed Config.defaults (.wrWet 65536) = false ∧
    WellFormed Config.defaults (.wrShim 65536) = false ∧
    WellFormed Config.defaults (.reservedSel5 65536) = false ∧
    WellFormed Config.defaults (.reservedSel67 true 65536) = false := by decide

theorem test_wellformed_accepts :
    WellFormed Config.defaults (.tick 4095) = true ∧
    WellFormed Config.defaults (.wrDelay 65535) = true ∧
    WellFormed Config.defaults (.reservedSel67 false 65535) = true ∧
    WellFormed Config.defaults .adv = true := by decide

/-! ## Decoding: words written out bit by bit from R81, R82, R84, R88 -/

/-- Format S: the word is the sample (R81). -/
theorem test_decode_sample :
    decode Config.defaults (.sample 0b000000000000) = .ok (.tick 0) ∧
    decode Config.defaults (.sample 0b001111101000) = .ok (.tick 1000) ∧
    decode Config.defaults (.sample 0b111111111111) = .ok (.tick 4095) ∧
    decode Config.defaults (.sample 0b1000000000000) = .error (.sampleTooWide 4096) := by decide

/-- Format C: three bits of `sel`, then sixteen of `data` (R82). -/
theorem test_decode_writes :
    decode Config.defaults (.command 0b0000000011111010000) = .ok (.wrDelay 2000) ∧
    decode Config.defaults (.command 0b0010000000000000001) = .ok (.wrRev 1) ∧
    decode Config.defaults (.command 0b0100000000000000101) = .ok (.wrRep 5) ∧
    decode Config.defaults (.command 0b0110000000010000000) = .ok (.wrWet 128) ∧
    decode Config.defaults (.command 0b1000000000001000000) = .ok (.wrShim 64) := by decide

/-- R90: the reserved register numbers, and a word that no port carries. -/
theorem test_decode_reserved :
    decode Config.defaults (.command 0b1010000000000000000) = .ok (.reservedSel5 0) ∧
    decode Config.defaults (.command 0b1100000000000000001) = .ok (.reservedSel67 false 1) ∧
    decode Config.defaults (.command 0b1111111111111111111) = .ok (.reservedSel67 true 65535) ∧
    decode Config.defaults (.command 0x80000) = .error (.commandTooWide 0x80000) := by decide

/-- Format Z (R84). -/
theorem test_decode_reset_line :
    decode Config.defaults (.resetLine true) = .ok .reset ∧
    decode Config.defaults (.resetLine false) = .error .resetNotAsserted := by decide

/-- Format Q with bit 4 = 0 (R88). -/
theorem test_decode_micro_steps :
    decode Config.defaults (.sequencer 0b00001#5) = .ok .latch ∧
    decode Config.defaults (.sequencer 0b00010#5) = .ok .acq ∧
    decode Config.defaults (.sequencer 0b00011#5) = .ok .store ∧
    decode Config.defaults (.sequencer 0b00100#5) = .ok .rdidxF ∧
    decode Config.defaults (.sequencer 0b00101#5) = .ok .seed ∧
    decode Config.defaults (.sequencer 0b00110#5) = .ok .tap ∧
    decode Config.defaults (.sequencer 0b00111#5) = .ok .shim ∧
    decode Config.defaults (.sequencer 0b01000#5) = .ok .mix ∧
    decode Config.defaults (.sequencer 0b01001#5) = .ok .emit ∧
    decode Config.defaults (.sequencer 0b01010#5) = .ok .adv := by decide

/-- Format Q with bit 4 = 1: only the RDIDX form depends on it (R88). -/
theorem test_decode_micro_steps_reverse :
    decode Config.defaults (.sequencer 0b10001#5) = .ok .latch ∧
    decode Config.defaults (.sequencer 0b10010#5) = .ok .acq ∧
    decode Config.defaults (.sequencer 0b10011#5) = .ok .store ∧
    decode Config.defaults (.sequencer 0b10100#5) = .ok .rdidxR ∧
    decode Config.defaults (.sequencer 0b10101#5) = .ok .seed ∧
    decode Config.defaults (.sequencer 0b10110#5) = .ok .tap ∧
    decode Config.defaults (.sequencer 0b10111#5) = .ok .shim ∧
    decode Config.defaults (.sequencer 0b11000#5) = .ok .mix ∧
    decode Config.defaults (.sequencer 0b11001#5) = .ok .emit ∧
    decode Config.defaults (.sequencer 0b11010#5) = .ok .adv := by decide

/-- R92: no micro-step at PHASE 0 and at 11 to 15. -/
theorem test_decode_no_micro_step :
    decode Config.defaults (.sequencer 0b00000#5) = .error .idlePhase ∧
    decode Config.defaults (.sequencer 0b10000#5) = .error .idlePhase ∧
    decode Config.defaults (.sequencer 0b01011#5) = .error (.unreachablePhase 11) ∧
    decode Config.defaults (.sequencer 0b11111#5) = .error (.unreachablePhase 15) := by decide

/-- R87: the words of the rule and of P3, encoded. -/
theorem test_encode_words :
    encode Config.defaults (.wrDelay 2000) = .command 0x007D0 ∧
    encode Config.defaults (.wrRev 1) = .command 0x10001 ∧
    encode Config.defaults (.wrRep 2) = .command 0x20002 ∧
    encode Config.defaults (.wrWet 128) = .command 0x30080 ∧
    encode Config.defaults (.wrShim 256) = .command 0x40100 ∧
    encode Config.defaults .rdidxR = .sequencer 0b10100#5 := by decide

/-- No two rows of the opcode table share a word. -/
theorem test_rows_disjoint : opcodeRows.Pairwise (fun a b => rowsDisjoint a b = true) := by decide

/-- The table's words, in its own widths and in whole bytes. -/
theorem test_table_words :
    decodeTableWord 12 0x3E8 = some (.tick 1000) ∧ decodeTableWord 16 0x3E8 = some (.tick 1000) ∧
    decodeTableWord 19 0x10001 = some (.wrRev 1) ∧ decodeTableWord 24 0x50000 = some (.reservedSel5 0) ∧
    decodeTableWord 1 1 = some .reset ∧ decodeTableWord 8 1 = some .reset ∧
    decodeTableWord 5 1 = some .latch ∧ decodeTableWord 8 0x11 = some .latch ∧
    decodeTableWord 8 0x14 = some .rdidxR ∧ decodeTableWord 8 0x0B = none := by decide

/-- R96: the pseudo-operations of a script. -/
theorem test_script_lines :
    expandLine (.pset 3 0 2 256 0) =
      [(.wrDelay 3, none), (.wrRev 0, none), (.wrRep 2, none), (.wrWet 256, none), (.wrShim 0, none)] ∧
    expandLine (.ticksTo [(5, 6), (7, 8)]) = [(.tick 5, some 6), (.tick 7, some 8)] ∧
    expandLine (.ticks [1, 2]) = [(.tick 1, none), (.tick 2, none)] := by decide

/-! ## The control port (V80 to V97) -/

theorem test_wrDelay_bounds :
    seen (exec (.wrDelay 1) State.reset) State.pDelay = some 1 ∧
    seen (exec (.wrDelay 47999) State.reset) State.pDelay = some 47999 ∧
    refusal (exec (.wrDelay 0) State.reset) = some (.illegalParameter .delay 0) ∧
    refusal (exec (.wrDelay 48000) State.reset) = some (.illegalParameter .delay 48000) := by decide

/-- V95: the bound follows the capacity. -/
theorem test_wrDelay_small :
    seen (exec (.wrDelay 7) (ready false 0)) State.pDelay = some 7 ∧
    refusal (exec (.wrDelay 8) (ready false 0)) = some (.illegalParameter .delay 8) := by decide

/-- V85 to V87: the whole of `data` is compared. -/
theorem test_wrRev :
    seen (exec (.wrRev 0) { State.reset with pRev := true }) State.pRev = some false ∧
    seen (exec (.wrRev 1) State.reset) State.pRev = some true ∧
    refusal (exec (.wrRev 2) State.reset) = some (.illegalParameter .rev 2) ∧
    refusal (exec (.wrRev 32769) State.reset) = some (.illegalParameter .rev 32769) := by decide

theorem test_wrRep :
    seen (exec (.wrRep 5) State.reset) State.pRep = some 5 ∧
    refusal (exec (.wrRep 6) State.reset) = some (.illegalParameter .rep 6) := by decide

theorem test_wrWet :
    seen (exec (.wrWet 256) State.reset) State.pWet = some 256 ∧
    refusal (exec (.wrWet 257) State.reset) = some (.illegalParameter .wet 257) := by decide

theorem test_wrShim :
    seen (exec (.wrShim 256) State.reset) State.pShim = some 256 ∧
    refusal (exec (.wrShim 257) State.reset) = some (.illegalParameter .shim 257) := by decide

/-- V94. -/
theorem test_reserved :
    refusal (exec (.reservedSel5 0) State.reset) = some (.reservedRegister 5) ∧
    refusal (exec (.reservedSel67 false 1) State.reset) = some (.reservedRegister 6) ∧
    refusal (exec (.reservedSel67 true 65535) State.reset) = some (.reservedRegister 7) := by decide

/-- V96, V97: what RESET leaves, once and twice. -/
theorem test_reset :
    seen (exec .reset { scenario with pRev := true, phase := .tap }) (fun s => (readParams s, s.wc, s.phase)) =
      some (⟨1, false, 0, 0, 0⟩, 0, .idle) ∧
    seen (exec .reset (resetState scenario)) State.phase = some .idle := by decide

/-! ## TICK -/

/-- V1, V20: the scenario, its output, the cursor, the stored entry. -/
theorem test_tick_scenario :
    seen (exec (.tick 1000) scenario) (fun s => (s.emitted, s.wc, s.buf)) =
      some ([(1000, 2700)], 5001, [(3000, 4000), (5000, 1000), (7000, 0)]) := by decide

/-- V2 to V8: the variants of the scenario. -/
theorem test_tick_variants :
    seen (exec (.tick 1000) { scenario with pRev := true }) outputs = some [2700] ∧
    seen (exec (.tick 1000) { scenario with pRep := 0 }) outputs = some [2500] ∧
    seen (exec (.tick 1000) { scenario with pShim := 64 }) outputs = some [2150] ∧
    seen (exec (.tick 1000) { scenario with pWet := 0 }) outputs = some [1000] ∧
    seen (exec (.tick 1000) { scenario with pWet := 256 }) outputs = some [4095] ∧
    seen (exec (.tick 1000) { scenario with pWet := 77, pShim := 64 }) outputs = some [1691] ∧
    seen (exec (.tick 4095) scenario) outputs = some [4095] := by decide

/-- P6: the three placements of `TICK 500` among two writes. -/
theorem test_tick_mixed_snapshot :
    let s : State := { ready false 0 with
      buf := [(0, 1000), (1, 2000), (2, 3000), (3, 4000), (4, 0), (5, 0)], wc := 4, pWet := 128 }
    seen (exec (.tick 500) { s with pDelay := 2 }) outputs = some [1750] ∧
    seen (exec (.tick 500) { s with pDelay := 1 }) outputs = some [2250] ∧
    seen (exec (.tick 500) { s with pDelay := 1, pRep := 1 }) outputs = some [2350] := by decide

/-- R241: a tick while an invocation is in progress. -/
theorem test_tick_overrun :
    refusal (exec (.tick 0) { ready true 0 with phase := .adv }) = some .overrun := by decide

/-! ## The micro-steps -/

/-- R111. -/
theorem test_latch :
    seen (exec .latch { scenario with phase := .latch }) (fun s => (s.snap, s.phase)) =
      some (some ⟨2000, false, 2, 128, 0⟩, .acq) := by decide

/-- R112. -/
theorem test_acq :
    seen (exec .acq { scenario with phase := .acq, sampleIn := some 1000 }) (fun s => (s.x, s.phase)) =
      some (some 1000, .store) := by decide

/-- R34, for a register and for the snapshot. -/
theorem test_unwritten :
    fault (exec .store { scenario with phase := .store }) = some (.noValue .x) ∧
    fault (exec .shim { scenario with phase := .shim, acc := some 5 }) = some (.noValue .snap) := by decide

/-- R113: one entry changes, to the raw input. -/
theorem test_store :
    seen (exec .store { scenario with phase := .store, x := some 1000 }) (fun s => (s.buf, s.phase)) =
      some ([(3000, 4000), (5000, 1000), (7000, 0)], .rdidx) ∧
    fault (exec .store { scenario with wc := 48000, x := some 1000 }) = some (.noSuchEntry 48000) := by decide

/-- V10 to V17, V19. -/
theorem test_rdidxF :
    seen (exec .rdidxF (atIndex 48000 5000 2000)) State.ri = some (some 3000) ∧
    seen (exec .rdidxF (atIndex 48000 100 2000)) State.ri = some (some 46100) ∧
    seen (exec .rdidxF (atIndex 48000 0 47999)) State.ri = some (some 1) ∧
    seen (exec .rdidxF (atIndex 48000 47999 47999)) State.ri = some (some 0) ∧
    seen (exec .rdidxF (atIndex 48000 1999 2000)) State.ri = some (some 47999) ∧
    seen (exec .rdidxF (atIndex 48000 7 0)) State.ri = some (some 7) := by decide

theorem test_rdidxR :
    seen (exec .rdidxR (atIndex 48000 5000 2000)) State.ri = some (some 3000) ∧
    seen (exec .rdidxR (atIndex 48000 100 2000)) State.ri = some (some 46100) ∧
    seen (exec .rdidxR (atIndex 48000 0 1)) State.ri = some (some 47999) ∧
    seen (exec .rdidxR (atIndex 48000 2000 2000)) State.ri = some (some 0) ∧
    seen (exec .rdidxR (atIndex 8 5 1)) State.ri = some (some 4) ∧
    seen (exec .rdidxR (atIndex 2 0 1)) State.ri = some (some 1) := by decide

/-- R140. -/
theorem test_seed :
    seen (exec .seed { scenario with phase := .seed, ri := some 3000 }) (fun s => (s.acc, s.r, s.phase)) =
      some (some 4000, some 1, .tap) := by decide

/-- V30, V37 and R41: two taps of the scenario, and the end of the loop. -/
theorem test_tap :
    let s : State := { scenario with
      buf := [(3000, 4000), (5000, 1000), (7000, 0)], phase := .tap, ri := some 3000,
      acc := some 4000, r := some 1, snap := some ⟨2000, false, 2, 128, 0⟩ }
    seen (exec .tap s) (fun s => (s.ei, s.acc, s.r, s.phase)) =
      some (some 5000, some 4400, some 2, .tap) ∧
    seen (exec .tap { s with acc := some 4400, r := some 2 }) (fun s => (s.ei, s.acc, s.r, s.phase)) =
      some (some 7000, some 4400, some 3, .tap) ∧
    seen (exec .tap { s with acc := some 4400, r := some 3 }) (fun s => (s.ei, s.acc, s.r, s.phase)) =
      some (none, some 4400, some 3, .shim) := by decide

/-- The `echoScale` values of `spec/95_test_vectors.md` 2.3. -/
theorem test_echoScale :
    [0, 1, 2, 3, 4, 5, 6, 7, 1000, 1234, 2047, 2048, 4093, 4094, 4095].map (echoScale Config.defaults) =
      [0, 0, 0, 1, 1, 2, 2, 2, 400, 493, 818, 819, 1637, 1637, 1638] := by decide

/-- A configuration whose table scales 1000 to 401: TAP adds the configured value (R6, R141). -/
theorem test_echoScale_configured :
    let s : State := { scenario with
      cfg := { Config.defaults with echoTable := [(1000, 401)] }, buf := [(3000, 4000), (5000, 1000)],
      phase := .tap, ri := some 3000, acc := some 4000, r := some 1, snap := some ⟨2000, false, 2, 128, 0⟩ }
    seen (exec .tap s) State.acc = some (some 4401) ∧ echoScale s.cfg 4095 = 1638 := by decide

/-- V43 to V46: `LOW`, `SGN`, `DELTA`, `SH`. -/
theorem test_shim :
    seen (exec .shim (atShim 4400 64)) shimResult = some (some 0, some .minus, some 1100, some 3300) ∧
    seen (exec .shim (atShim 4409 64)) State.sh = some (some 5511) ∧
    seen (exec .shim (atShim 4407 64)) shimResult = some (some 7, some .minus, some 1101, some 3306) ∧
    seen (exec .shim (atShim 4408 64)) State.sh = some (some 5510) := by decide

/-- V51, V52: full depth with either sign. -/
theorem test_shim_full_depth :
    seen (exec .shim (atShim 9009 256)) shimResult = some (some 1, some .minus, some 9009, some 0) ∧
    seen (exec .shim (atShim 12285 256)) shimResult = some (some 13, some .plus, some 12285, some 24570) := by
  decide

/-- V44, V45 with `SHIM_BITS = 3` and `SHIM_THRESH = 3`. -/
theorem test_shim_open_parameters :
    let c : Config := { Config.defaults with shimBits := 3, shimThresh := 3 }
    seen (exec .shim { atShim 4409 64 with cfg := c }) (fun s => (s.low, s.sgn, s.sh)) =
      some (some 1, some .minus, some 3307) ∧
    seen (exec .shim { atShim 4407 64 with cfg := c }) (fun s => (s.low, s.sgn, s.sh)) =
      some (some 7, some .plus, some 5508) := by decide

/-- V60 to V65, V69 to V71, V75. -/
theorem test_mix :
    seen (exec .mix (atMix 1000 4400 0)) State.mixw = some (some 1000) ∧
    seen (exec .mix (atMix 1000 4400 256)) State.mixw = some (some 4400) ∧
    seen (exec .mix (atMix 1000 4400 128)) State.mixw = some (some 2700) ∧
    seen (exec .mix (atMix 1000 4400 1)) State.mixw = some (some 1013) ∧
    seen (exec .mix (atMix 4095 24570 256)) State.mixw = some (some 24570) ∧
    seen (exec .mix (atMix 4095 0 255)) State.mixw = some (some 15) ∧
    seen (exec .mix (atMix 0 1 255)) State.mixw = some (some 0) ∧
    seen (exec .mix (atMix 3 4 128)) State.mixw = some (some 3) := by decide

/-- V62, V66, V68: saturation, not wrap-around; PHASE goes on to ADV. -/
theorem test_emit :
    seen (exec .emit (atEmit 2700)) (fun s => (s.y, s.emitted, s.phase)) =
      some (some 2700, [(0, 2700)], .adv) ∧
    seen (exec .emit (atEmit 4096)) State.y = some (some 4095) ∧
    seen (exec .emit (atEmit 4095)) State.y = some (some 4095) ∧
    clamp (-1) 0 4095 = 0 := by decide

/-- V21, V22 and R34. -/
theorem test_adv :
    seen (exec .adv { scenario with phase := .adv, y := some 5 }) (fun s => (s.wc, s.phase, s.y)) =
      some (5001, .idle, none) ∧
    seen (exec .adv { scenario with wc := 47999 }) State.wc = some 0 := by decide

/-! ## The step -/

/-- A coinciding write and tick go either way (R62), and reset wins over both (R206). -/
theorem test_coinciding_events :
    let a (rst first : Bool) : Arrival := ⟨rst, some 0x30100, some 600, first⟩
    let s (rst first : Bool) : State := { ready false 40 with agenda := [.ports (a rst first)] }
    seen (step (s false false)) (fun t => (t.pWet, outputs t)) = some (256, []) ∧
    seen (step (s false true)) (fun t => (t.pWet, outputs t)) = some (0, [600]) ∧
    seen (step (s true true)) (fun t => (t.pWet, outputs t, t.agenda)) = some (0, [], []) := by decide

/-- A word that no port carries, and a sequencer that is idle with nothing to come. -/
theorem test_step_undecodable :
    refusal (step { State.reset with agenda := [.ports ⟨false, some 0x80000, none, false⟩] }) =
      some (.undecodable (.commandTooWide 0x80000)) ∧
    seen (step State.reset) id = some State.reset := by decide

/-- A placed word is the very next step's operation: a write, a micro-step in each form of RDIDX. -/
theorem test_placed_words :
    seen (step (State.reset.withFetchWord 24 0x10001)) State.pRev = some true ∧
    seen (step (State.reset.withFetchWord 8 0x04)) (fun s => (s.ri, s.phase)) =
      some (some 47999, .seed) ∧
    seen (step (State.reset.withFetchWord 8 0x14)) (fun s => (s.ri, s.phase)) =
      some (some 47999, .seed) ∧
    seen (step (State.reset.withFetchWord 8 0x0A)) (fun s => (s.wc, s.phase)) = some (1, .idle) ∧
    seen (step (State.reset.withFetchWord 24 0x50000)) State.phase = none := by decide

/-! ## Witnesses: for each statement with hypotheses, states and operands that meet them all -/

theorem small_legal (b : Bool) : (small b).Legal := by
  cases b <;>
    exact legal_of_table_nil rfl (by decide) (by decide) (by decide) (by decide) (by decide) (by decide)
      (by decide) (by decide)

theorem defaults_legal : Config.defaults.Legal :=
  legal_of_table_nil rfl (by decide) (by decide) (by decide) (by decide) (by decide) (by decide)
    (by decide) (by decide)

theorem ready_legal (b : Bool) : (ready b 40).Legal := by
  cases b <;>
    exact ⟨small_legal _, by decide, by decide, by decide, by decide, by decide, by decide, by decide, by decide⟩

theorem ready_ready : (ready false 40).Ready := ⟨ready_legal false, rfl, rfl⟩

/-- Every parameter of its largest legal value. -/
def loud (b : Bool) : State :=
  { ready b 4095 with pDelay := 7, pRev := true, pRep := 5, pWet := 256, pShim := 256, wc := 7 }

theorem loud_legal (b : Bool) : (loud b).Legal := by
  cases b <;>
    exact ⟨small_legal _, by decide, by decide, by decide, by decide, by decide, by decide, by decide, by decide⟩

theorem loud_ready : (loud false).Ready := ⟨loud_legal false, rfl, rfl⟩

/-- Nothing but the delay line: no taps, no shimmer, fully wet. -/
theorem delayOnly_ready : ({ ready false 40 with pDelay := 2, pWet := 256 } : State).Ready :=
  ⟨⟨small_legal false, by decide, by decide, by decide, by decide, by decide, by decide, by decide, by decide⟩,
    rfl, rfl⟩

theorem ready_inv (b : Bool) : (ready b 40).Inv := by
  refine ⟨ready_legal b, ?_, ?_⟩
  · constructor <;> simp [ready, State.resetWith, Phase.code]
  · constructor <;> simp [ready, State.resetWith]

/-- Inside an invocation: after SHIM of the scenario's values, in the small capacity. -/
def inside : State :=
  { ready true 40 with
    phase := .mix, sampleIn := some 1000, x := some 1000, ri := some 7, ei := some 0, r := some 2,
    snap := some ⟨1, false, 1, 128, 64⟩, acc := some 440, low := some 8, sgn := some .plus,
    delta := some 110, sh := some 550 }

theorem inside_inv : inside.Inv := by
  refine ⟨⟨small_legal true, by decide, by decide, by decide, by decide, by decide, by decide, by decide,
    by decide⟩, ?_, ?_⟩
  · constructor <;> simp [inside, Phase.code, ready, State.resetWith]
  · constructor <;>
      simp [inside, ready, State.resetWith, small, Config.defaults, Config.fs, Config.one, Snapshot.Legal,
        Config.maxRepeats, echoScale, defaultEchoScale]

/-- Inside an invocation, after EMIT. -/
def ending : State :=
  { inside with phase := .adv, mixw := some 775, y := some 775, emitted := [(1000, 775)] }

theorem ending_inv : ending.Inv := by
  refine ⟨⟨small_legal true, by decide, by decide, by decide, by decide, by decide, by decide, by decide,
    by decide⟩, ?_, ?_⟩
  · constructor <;> simp [ending, inside, Phase.code]
  · constructor <;>
      simp [ending, inside, ready, State.resetWith, small, Config.defaults, Config.fs, Config.one, Snapshot.Legal,
        Config.maxRepeats, echoScale, defaultEchoScale]

/-- A legal write and a tick at one instant, with no invocation in progress. -/
def meeting : State :=
  { ready true 40 with agenda := [.ports ⟨false, some 0x30100, some 600, true⟩] }

theorem meeting_inv : meeting.Inv := by
  refine ⟨⟨small_legal true, by decide, by decide, by decide, by decide, by decide, by decide, by decide,
    by decide⟩, ?_, ?_⟩
  · constructor <;> simp [meeting, ready, State.resetWith, Phase.code]
  · constructor <;> simp [meeting, ready, State.resetWith]

theorem wit_DecodeInvertsEncode :
    WellFormed Config.defaults (.tick 4095) = true ∧ WellFormed Config.defaults (.wrDelay 65535) = true ∧
    WellFormed Config.defaults (.reservedSel67 true 0) = true ∧ WellFormed (small true) .adv = true := by
  decide

theorem wit_CommandWordsAllDecode : (7 : Nat) < 8 ∧ 65535 < 2 ^ Config.defaults.dataW := by decide

theorem wit_DecodedWordsEncodeBack :
    decode Config.defaults (.command 0x7FFFF) = .ok (.reservedSel67 true 65535) ∧
    (∀ q, Transaction.command 0x7FFFF ≠ .sequencer q) :=
  ⟨by decide, fun _ h => by cases h⟩

theorem wit_PhaseCodesAboveTenUnreachable :
    11 ≤ (0b01011#5).toNat % 16 ∧ 11 ≤ (0b11111#5).toNat % 16 ∧ (0b10000#5).toNat % 16 = 0 ∧
    inside.phase ≠ .idle := by decide

theorem wit_LegalWritesTakeEffect :
    1 ≤ 7 ∧ 7 ≤ (ready true 40).cfg.capacity - 1 ∧ 256 ≤ 2 ^ (ready true 40).cfg.coefFrac := by decide

theorem wit_IllegalCommandWordsRefused :
    (ready true 40).cfg.Legal ∧ 65535 < 2 ^ (ready true 40).cfg.dataW ∧
    (ready true 40).cfg.capacity ≤ 8 ∧ (ready true 40).cfg.one + 1 ≤ 257 :=
  ⟨small_legal true, by decide, by decide, by decide⟩

theorem wit_PsetLatchesMixedSnapshot :
    1 ≤ 7 ∧ 7 ≤ (ready true 40).cfg.capacity - 1 ∧ 256 ≤ (ready true 40).cfg.one := by decide

theorem wit_ReservedRegistersRefused : 0 < 2 ^ (ready true 40).cfg.dataW := by decide

theorem wit_ResetTwiceIsResetOnce :
    exec .reset inside = .next (resetState inside) ∧
    exec .reset (resetState inside) = .next (resetState (resetState inside)) := ⟨rfl, rfl⟩

/-- With a transaction in progress, and without. -/
theorem wit_AcquireTakesInput :
    (startInvocation 1000 (ready true 40)).sampleIn = some 1000 ∧ (ready true 40).sampleIn = none := ⟨rfl, rfl⟩

theorem wit_StoreWritesAtCursor :
    ({ ready true 40 with x := some 1000, wc := 7 } : State).x = some 1000 ∧
    ({ ready true 40 with x := some 1000, wc := 7 } : State).wc < 8 ∧
    Memory.wf (ready true 40).buf = true := by decide

/-- Delays 0, N-1 and on either side of the branch of R115. -/
theorem wit_ForwardReadIndex :
    (atIndex 8 7 0).snap = some ⟨0, false, 0, 0, 0⟩ ∧ (atIndex 8 7 0).wc < 8 ∧
    (atIndex 8 2 7).snap = some ⟨7, false, 0, 0, 0⟩ ∧ (atIndex 8 2 7).wc < 7 := by decide

theorem wit_ReverseReadIndex :
    (atIndex 8 3 3).snap = some ⟨3, false, 0, 0, 0⟩ ∧ (atIndex 8 3 3).wc = 3 ∧
    (atIndex 8 2 3).snap = some ⟨3, false, 0, 0, 0⟩ ∧ (atIndex 8 2 3).wc < 3 := by decide

theorem wit_UndefinedSnapshotsRefused :
    ((atIndex 8 3 8).snap = some ⟨8, false, 0, 0, 0⟩ ∧ (atIndex 8 3 8).cfg.capacity ≤ 8) ∧
    (({ inside with snap := some ⟨1, false, 6, 0, 0⟩ } : State).r = some 2 ∧ 5 < 6) ∧
    ((atShim 5 257).acc = some 5 ∧ (atShim 5 257).cfg.one < 257) ∧
    ((atMix 1 2 257).x = some 1 ∧ (atMix 1 2 257).sh = some 2 ∧ (atMix 1 2 257).cfg.one < 257) := by decide

theorem wit_SeedReadsBaseSample :
    inside.ri = some 7 ∧ 7 < inside.cfg.capacity := by decide

/-- A tap that is due, and the end of the loop. -/
theorem wit_TapAddsOneEcho :
    inside.snap = some ⟨1, false, 1, 128, 64⟩ ∧ inside.r = some 2 ∧ 1 < 2 ∧
    ({ inside with r := some 1 } : State).r = some 1 ∧ inside.ri = some 7 ∧ inside.acc = some 440 ∧
    0 < inside.cfg.capacity ∧ inside.cfg.echoTable = [] := by decide

/-- Depths 0 and ONE, with a positive sign (V49) and a negative one (V51). -/
theorem wit_ShimmerPerturbsBySign :
    (atShim 12285 0).acc = some 12285 ∧ (atShim 12285 0).cfg.shimThresh < 12285 % 16 ∧
    (atShim 9009 256).acc = some 9009 ∧ 9009 % 16 ≤ (atShim 9009 256).cfg.shimThresh ∧
    256 = (atShim 9009 256).cfg.one := by decide

/-- Fully dry, fully wet (V60, V61). -/
theorem wit_MixCrossfades :
    (atMix 1000 4400 0).x = some 1000 ∧ (atMix 1000 4400 0).sh = some 4400 ∧
    (atMix 1000 4400 256).snap = some ⟨1, false, 0, 256, 0⟩ ∧ 256 = (atMix 1000 4400 256).cfg.one := by
  decide

/-- The two sides of the clamp (V66, V68). -/
theorem wit_EmitClampsAndHandsOut :
    (atEmit 4095).mixw = some 4095 ∧ 4095 ≤ (atEmit 4095).cfg.fs ∧ (atEmit 4096).mixw = some 4096 ∧
    (atEmit 4096).cfg.fs < 4096 ∧ (atEmit 4096).sampleIn = some 0 ∧
    ({ atEmit 4096 with sampleIn := none } : State).sampleIn = none := by decide

/-- The wrap and the other case. -/
theorem wit_AdvanceMovesCursor :
    (loud true).wc = (loud true).cfg.capacity - 1 ∧ (loud true).wc < (loud true).cfg.capacity ∧
    (ready true 40).wc < (ready true 40).cfg.capacity - 1 := by decide

/-- Each register missing alone, the registers read before it being there. -/
theorem wit_UnwrittenRegistersFault :
    let s : State := { inside with r := some 1, mixw := some 775 }
    ({ s with x := none } : State).x = none ∧
    ({ s with r := none } : State).snap = some ⟨1, false, 1, 128, 64⟩ ∧
    (({ s with ri := none } : State).r = some 1 ∧ 1 ≤ 1 ∧ 1 ≤ 5) ∧
    (({ s with acc := none } : State).ri ≠ none ∧ ({ s with acc := none } : State).acc = none) ∧
    (({ s with snap := none } : State).acc ≠ none ∧ ({ s with snap := none } : State).sh ≠ none) ∧
    (({ s with sh := none } : State).x ≠ none ∧ ({ s with mixw := none } : State).mixw = none) := by decide

theorem wit_TickIsOneInvocation :
    ((ready false 40).Ready ∧ 0 ≤ (ready false 40).cfg.fs) ∧
    ((loud false).Ready ∧ 4095 ≤ (loud false).cfg.fs) :=
  ⟨⟨ready_ready, by decide⟩, loud_ready, by decide⟩

theorem wit_SteppedInvocationEqualsAtomic :
    (loud true).Legal ∧ (loud true).phase = .idle ∧ (loud true).cfg.stepped = true ∧
    (loud true).agenda = [] ∧ 4095 ≤ (loud true).cfg.fs :=
  ⟨loud_legal true, rfl, rfl, rfl, by decide⟩

theorem wit_SteppedTickOnlyStarts :
    (ready true 40).phase = .idle ∧ (ready true 40).cfg.stepped = true := by decide

theorem wit_WritesCommuteWithMicroSteps :
    Instr.mix ∈ [Instr.acq, .store, .rdidxF, .rdidxR, .seed, .tap, .shim, .mix, .emit, .adv] ∧
    ∃ t, exec .mix inside = .next t := ⟨by decide, _, rfl⟩

/-- The last cursor, in either reading. -/
theorem wit_ResetParametersPassThrough :
    let s (b : Bool) : State := { ready b 4095 with wc := 7, emitted := [(3, 4)] }
    ((s false).Legal ∧ (s true).Legal) ∧ (s true).phase = .idle ∧ 4095 ≤ (s true).cfg.fs ∧
      readParams (s true) = ⟨1, false, 0, 0, 0⟩ ∧ (s false).cfg.stepped = false ∧
      (s true).cfg.stepped = true ∧ (s true).agenda = [] :=
  ⟨⟨⟨small_legal false, by decide, by decide, by decide, by decide, by decide, by decide, by decide, by decide⟩,
    small_legal true, by decide, by decide, by decide, by decide, by decide, by decide, by decide, by decide⟩,
    by decide, by decide, by decide, by decide, by decide, by decide⟩

/-- Fully dry, fully wet. -/
theorem wit_MixBoundaries :
    ((ready true 40).Legal ∧ (ready true 40).pWet = 0) ∧
    ((loud true).Legal ∧ (loud true).pWet = (loud true).cfg.one ∧ 4095 ≤ (loud true).cfg.fs) :=
  ⟨⟨ready_legal true, rfl⟩, loud_legal true, by decide, by decide⟩

/-- A state whose clamp engages (V52), and one without taps and shimmer. -/
theorem wit_ClampEngagesOnlyWhenNeeded :
    ((loud true).Legal ∧ (loud true).cfg.fs <
      crossfade (loud true).cfg 4095 (shimmered (loud true).cfg (delayedSample (loud true) 4095)
        (loud true).pShim) (loud true).pWet) ∧
    ((ready true 40).Legal ∧ (ready true 40).pRep = 0 ∧ (ready true 40).pShim = 0 ∧
      crossfade (ready true 40).cfg 0 (shimmered (ready true 40).cfg (delayedSample (ready true 40) 0) 0) 0 ≤
        (ready true 40).cfg.fs) :=
  ⟨⟨loud_legal true, by decide⟩, ready_legal true, by decide, by decide, by decide⟩

/-- No taps, all taps, and two states of one configuration with one buffer above the other. -/
theorem wit_EchoStageBounds :
    ((ready true 40).Legal ∧ (ready true 40).pRep = 0 ∧ 4095 ≤ (ready true 40).cfg.fs) ∧
    ((loud true).Legal ∧ (loud true).pRep = 5) ∧
    ((ready true 40).Legal ∧ ∀ j, entry (ready true 40) j ≤ entry (ready true 40) j) :=
  ⟨⟨ready_legal true, by decide, by decide⟩, ⟨loud_legal true, by decide⟩, ready_legal true, fun _ => Nat.le_refl _⟩

/-- The configurations and the function of the clauses exist: the defaults, and the default function. -/
theorem wit_EchoScaleIsDetermined :
    Config.defaults.echoTable = [] ∧ Config.defaults.Legal ∧ 4095 ≤ Config.defaults.fs ∧ (3 : Nat) ≤ 4 ∧
    ∀ t, 2 * t < 5 * defaultEchoScale t + 5 ∧ 5 * defaultEchoScale t ≤ 2 * t :=
  ⟨rfl, defaults_legal, by decide, by decide, defaultEchoScale_bounds⟩

/-- V33: a delay of half the capacity, where taps meet the base and the cursor. -/
theorem wit_ReadIndexCoincidences :
    (24000 : Nat) < 48000 ∧ 48000 ∣ (3 - 1) * 24000 ∧ 48000 ∣ 2 * 24000 ∧ 48000 ∣ (4 - 2) * 24000 := by
  decide

theorem wit_TicksAlwaysComplete :
    (loud false).Ready ∧ ∀ x ∈ [0, 1000, 4095], x ≤ (loud false).cfg.fs := ⟨loud_ready, by decide⟩

theorem wit_CursorCountsInvocations :
    (loud false).Ready ∧ ∀ x ∈ [5, 6, 7], x ≤ (loud false).cfg.fs := ⟨loud_ready, by decide⟩

/-- Nine inputs into eight entries: the first is overwritten, and one input leaves an entry untouched. -/
theorem wit_BufferHoldsInputHistory :
    (ready false 40).Ready ∧ (∀ x ∈ [1, 2, 3, 4, 5, 6, 7, 8, 9], x ≤ (ready false 40).cfg.fs) ∧
    [1, 2, 3, 4, 5, 6, 7, 8, 9].length ≤ 1 + (ready false 40).cfg.capacity ∧
    (∀ j, j < [1].length → ((ready false 40).wc + j) % (ready false 40).cfg.capacity ≠ 5) :=
  ⟨ready_ready, by decide, by decide, by decide⟩

/-- The first output that lags. -/
theorem wit_PureDelayLine :
    let s : State := { ready false 40 with pDelay := 2, pWet := 256 }
    s.Ready ∧ (∀ x ∈ [10, 20, 30], x ≤ s.cfg.fs) ∧ s.pRep = 0 ∧ s.pShim = 0 ∧ s.pWet = s.cfg.one ∧
      s.pDelay ≤ 2 ∧ 2 < [10, 20, 30].length :=
  ⟨delayOnly_ready, by decide, by decide, by decide, by decide, by decide, by decide⟩

theorem wit_ReverseModeHasNoEffect :
    (loud false).Ready ∧ ∀ x ∈ [4095, 0], x ≤ (loud false).cfg.fs := ⟨loud_ready, by decide⟩

theorem wit_EchoesFollowInputHistory :
    (loud false).Ready ∧ (∀ y ∈ [1, 2, 3, 4, 5, 6, 7], y ≤ (loud false).cfg.fs) ∧
    4095 ≤ (loud false).cfg.fs ∧ (loud false).cfg.capacity - 1 ≤ [1, 2, 3, 4, 5, 6, 7].length :=
  ⟨loud_ready, by decide, by decide, by decide⟩

/-- Two buffers that differ in every entry. -/
theorem wit_OutputsForgetInitialBuffer :
    (ready false 40).Ready ∧ ({ ready false 40 with buf := full 41, draw := 1 } : State).Legal ∧
    (∀ x ∈ [1, 2, 3, 4, 5, 6, 7, 8], x ≤ (ready false 40).cfg.fs) :=
  ⟨ready_ready,
    ⟨small_legal false, by decide, by decide, by decide, by decide, by decide, by decide, by decide, by decide⟩,
    by decide⟩

theorem wit_ComputingStepsKeepPersistentState :
    Instr.mix ∈ [Instr.latch, .acq, .rdidxF, .rdidxR, .seed, .tap, .shim, .mix] ∧
    ∃ t, exec .mix inside = .next t := ⟨by decide, _, rfl⟩

/-- A write that changes the Parameter Set, inside an invocation. -/
theorem wit_OnlyControlWritesParameters :
    exec (.wrRep 5) inside = .next { inside with pRep := 5 } ∧
    readParams { inside with pRep := 5 } ≠ readParams inside :=
  ⟨rfl, by decide⟩

/-- A STORE that changes the buffer, an ADV that changes the cursor. -/
theorem wit_BufferAndCursorOwnership :
    (∃ t, exec .store inside = .next t ∧ t.buf ≠ inside.buf) ∧
    (∃ t, exec .adv inside = .next t ∧ t.wc ≠ inside.wc) :=
  ⟨⟨_, rfl, by decide⟩, _, rfl, by decide⟩

theorem wit_OnlyEmitHandsOut :
    ∃ t, exec .emit { inside with phase := .emit, mixw := some 4096 } = .next t ∧
      t.emitted = [(1000, 4095)] := ⟨_, rfl, by decide⟩

theorem wit_StepsKeepConfiguration : ∃ t, step inside = .next t := ⟨_, rfl⟩

/-- A sample, a command word, a reset and a micro-step that stand next, in states outside LATCH. -/
theorem wit_StepRunsDecodedOperation :
    (inside.phase ≠ .latch ∧ decode inside.cfg (.sample 4095) = .ok (.tick 4095)) ∧
    decode inside.cfg (.command 0x20005) = .ok (.wrRep 5) ∧
    (⟨true, some 0, some 0, true⟩ : Arrival).rst = true ∧
    (inside.phase ≠ .idle ∧ decode inside.cfg (.sequencer (seqWord inside)) = .ok .mix ∧
      inside.agenda = [] ∧ ({ inside with agenda := [.engine] } : State).agenda = .engine :: []) := by
  decide

/-- The three cases: reset, tick first, write first. -/
theorem wit_CoincidingEventsOrdered :
    let a (rst first : Bool) : Arrival := ⟨rst, some 0x30100, some 600, first⟩
    (ready true 40).phase ≠ .latch ∧
    decode (ready true 40).cfg (.command 0x30100) = .ok (.wrWet 256) ∧
    decode (ready true 40).cfg (.sample 600) = .ok (.tick 600) ∧
    (a true true).rst = true ∧ (a false true).tickFirst = true ∧ (a false false).tickFirst = false := by
  decide

/-- A write that arrives right after a tick. -/
theorem wit_LatchPrecedesPorts :
    let s : State := { startInvocation 5 (ready true 40) with agenda := [.ports ⟨false, some 0, none, false⟩] }
    s.phase = .latch ∧ s.agenda = .ports ⟨false, some 0, none, false⟩ :: [] := ⟨rfl, rfl⟩

theorem wit_IdleMachineHolds :
    State.reset.phase = .idle ∧ State.reset.agenda = [] ∧
    ({ State.reset with agenda := [.engine] } : State).agenda = .engine :: [] := by decide

/-- A port's word and a sequencer word. -/
theorem wit_PlacedWordRunsNext :
    (tableTransaction 24 0x10001 = some (.command 0x10001) ∧
      decode State.reset.cfg (.command 0x10001) = .ok (.wrRev 1)) ∧
    (tableTransaction 8 0x14 = some (.sequencer 0b10100#5) ∧
      decode State.reset.cfg (.sequencer 0b10100#5) = .ok .rdidxR) := by decide

theorem wit_ResetMeetsInvariant : Config.defaults.Legal ∧ (small true).Legal :=
  ⟨defaults_legal, small_legal true⟩

theorem wit_StepKeepsInvariant :
    (inside.Inv ∧ ∃ t, step inside = .next t) ∧
    ((ready false 40).Inv ∧ ∃ t, step (ready false 40) = .next t) :=
  ⟨⟨inside_inv, _, rfl⟩, ready_inv false, _, rfl⟩

theorem wit_NoFaultUnderInvariant : inside.Inv ∧ ending.Inv ∧ (ready true 40).Inv :=
  ⟨inside_inv, ending_inv, ready_inv true⟩

theorem wit_ContractStepsComplete : meeting.Inv ∧ meeting.KeepsContract := by
  refine ⟨meeting_inv, fun a rest h _ => ?_⟩
  injection h with h
  injection h with h
  subst h
  refine ⟨fun w hw => ?_, fun v hv => ⟨?_, rfl⟩⟩
  · injection hw with hw
    subst hw
    exact ⟨.wrWet 256, by decide, by decide⟩
  · injection hv with hv
    subst hv
    exact ⟨.tick 600, by decide, by decide⟩

theorem wit_DerivedWidthsSuffice :
    inside.Inv ∧ inside.x = some 1000 ∧ inside.ri = some 7 ∧ inside.ei = some 0 ∧ inside.r = some 2 ∧
    inside.acc = some 440 ∧ inside.low = some 8 ∧ inside.snap = some ⟨1, false, 1, 128, 64⟩ ∧ inside.delta = some 110 ∧ inside.sh = some 550 ∧
    ending.Inv ∧ ending.mixw = some 775 ∧ ending.y = some 775 :=
  ⟨inside_inv, rfl, rfl, rfl, rfl, rfl, rfl, rfl, rfl, rfl, ending_inv, rfl, rfl⟩

end Sys2Proof.Tests
end

/-! The micro-steps together: which one ENGINE performs, what each of them leaves unchanged, and
the phase it leads to (`spec/10_state.md` R41, `spec/30_encoding.md` R85). -/

namespace Sys2Proof.Machine

open Sys2Proof

/-- The phase after a micro-step, where TAP ends the echo loop (R41). -/
def nextPhase : Phase → Phase
  | .idle => .idle
  | .latch => .acq
  | .acq => .store
  | .store => .rdidx
  | .rdidx => .seed
  | .seed => .tap
  | .tap => .shim
  | .shim => .mix
  | .mix => .emit
  | .emit => .adv
  | .adv => .idle

/-- What the micro-step of phase `p` leaves: the configuration and the agenda as they were, the snapshot too
unless it is LATCH, which loads it, or ADV, which drops it (R36, R34); and, unless it is TAP, the next phase. -/
structure MicroFrame (p : Phase) (s t : State) : Prop where
  cfg : t.cfg = s.cfg
  agenda : t.agenda = s.agenda
  snap : p ≠ .latch → p ≠ .adv → t.snap = s.snap
  phase : p ≠ .tap → t.phase = nextPhase p

theorem setReadIndex_frame {f : Nat → Nat → Nat → Nat} {s t : State} (h : setReadIndex f s = .next t) :
    MicroFrame .rdidx s t := by
  obtain ⟨p, -, -, rfl⟩ := setReadIndex_eq_next.1 h
  exact ⟨rfl, rfl, fun _ _ => rfl, fun _ => rfl⟩

theorem execTap_frame {s t : State} (h : execTap s = .next t) : MicroFrame .tap s t := by
  obtain ⟨p, r, -, -, -, ⟨-, rfl⟩ | ⟨-, i, a, -, -, -, rfl⟩⟩ := execTap_eq_next.1 h
  · exact ⟨rfl, rfl, fun _ _ => rfl, fun h => absurd rfl h⟩
  · exact ⟨rfl, rfl, fun _ _ => rfl, fun h => absurd rfl h⟩

/-- Whatever micro-step a phase selects keeps the frame of that phase. -/
theorem microStep_frame {rev : Bool} {p : Phase} {i : Instr} {s t : State}
    (hi : microStep rev p = some i) (h : exec i s = .next t) : MicroFrame p s t := by
  cases p <;> simp only [microStep, Option.some.injEq, reduceCtorEq] at hi <;> subst hi
  case latch =>
    obtain rfl := execLatch_eq_next.1 h
    exact ⟨rfl, rfl, fun h => absurd rfl h, fun _ => rfl⟩
  case acq =>
    obtain rfl := execAcq_eq_next.1 h
    exact ⟨rfl, rfl, fun _ _ => rfl, fun _ => rfl⟩
  case store =>
    obtain ⟨v, -, -, rfl⟩ := execStore_eq_next.1 h
    exact ⟨rfl, rfl, fun _ _ => rfl, fun _ => rfl⟩
  case rdidx => cases rev <;> exact setReadIndex_frame h
  case seed =>
    obtain ⟨i, -, -, rfl⟩ := execSeed_eq_next.1 h
    exact ⟨rfl, rfl, fun _ _ => rfl, fun _ => rfl⟩
  case tap => exact execTap_frame h
  case shim =>
    obtain ⟨a, p, -, -, -, rfl⟩ := execShim_eq_next.1 h
    exact ⟨rfl, rfl, fun _ _ => rfl, fun _ => rfl⟩
  case mix =>
    obtain ⟨v, w, p, -, -, -, -, rfl⟩ := execMix_eq_next.1 h
    exact ⟨rfl, rfl, fun _ _ => rfl, fun _ => rfl⟩
  case emit =>
    obtain ⟨m, -, rfl⟩ := execEmit_eq_next.1 h
    exact ⟨rfl, rfl, fun _ _ => rfl, fun _ => rfl⟩
  case adv =>
    obtain rfl := execAdv_eq_next.1 h
    exact ⟨rfl, rfl, fun _ h => absurd rfl h, fun _ => rfl⟩

/-- The `S_REV` bit of the sequencer word: the latched mode, forward before LATCH (R85). -/
def latchedRev (s : State) : Bool := s.snap.any Snapshot.rev

theorem seqWord_eq (s : State) : seqWord s = seqWordOf (latchedRev s) s.phase := by
  unfold seqWord latchedRev
  cases s.snap <;> rfl

/-- RDIDX of an invocation is the form that the latched mode selects (R86, R110). -/
theorem selectReadIndex_eq_next {s t : State} :
    selectReadIndex s = .next t ↔
      s.snap.isSome = true ∧ exec (if latchedRev s then .rdidxR else .rdidxF) s = .next t := by
  unfold selectReadIndex latchedRev
  cases s.snap with
  | none => simp [need]
  | some p => cases hp : p.rev <;> simp [hp, exec]

/-- With no event left and an invocation in progress, a step performs its phase's micro-step (R85, R205). -/
theorem step_eq_exec_microStep {s : State} {i : Instr} (ha : s.agenda = [])
    (hi : microStep (latchedRev s) s.phase = some i) : step s = exec i s := by
  have hphase : s.phase ≠ .idle := (microStep_isSome _ _).1 (by rw [hi]; rfl)
  have hdec : decode s.cfg (.sequencer (seqWord s)) = .ok i := by
    rw [seqWord_eq]; exact decodeSequencer_seqWordOf _ _ _ hi
  have hfetch : fetch s = .word (.sequencer (seqWord s)) s := by
    simp [fetch, ha, engineMove, hphase]
  simp only [step, hfetch, hdec]

/-! Runs of the machine, cut and joined. -/

theorem run_succ (n : Nat) (s : State) :
    Sys2Proof.core.run (n + 1) s = andThen (step s) (Sys2Proof.core.run n) := by
  have hstep : Sys2Proof.core.step s = step s := rfl
  simp only [Host.Core.run, hstep]
  cases step s <;> rfl

theorem run_cons {n : Nat} {s u t : State} (h : step s = .next u)
    (hu : Sys2Proof.core.run n u = .next t) : Sys2Proof.core.run (n + 1) s = .next t := by
  rw [run_succ]
  exact andThen_eq_next.2 ⟨u, h, hu⟩

theorem run_append {m n : Nat} {s u t : State} (h : Sys2Proof.core.run m s = .next u)
    (hu : Sys2Proof.core.run n u = .next t) : Sys2Proof.core.run (m + n) s = .next t := by
  induction m generalizing s with
  | zero =>
    obtain rfl : u = s := next_eq_next.1 h
    rwa [Nat.zero_add]
  | succ m ih =>
    rw [run_succ] at h
    obtain ⟨v, hstep, hrest⟩ := andThen_eq_next.1 h
    rw [Nat.add_right_comm]
    exact run_cons hstep (ih hrest)

/-- An invocation in progress at phase `p`, with no outside event to come. -/
structure EngineAt (p : Phase) (s : State) : Prop where
  phase : s.phase = p
  agenda : s.agenda = []

/-- A part of the atomic invocation but a tap is one transition of the stepped reading, to the next phase. -/
theorem engine_moves {p : Phase} {i : Instr} {s t : State} (hs : EngineAt p s) (hp : p ≠ .tap)
    (hi : microStep (latchedRev s) p = some i) (h : exec i s = .next t) :
    step s = .next t ∧ EngineAt (nextPhase p) t := by
  have hf := microStep_frame hi h
  refine ⟨?_, hf.phase hp, hf.agenda.trans hs.agenda⟩
  rw [step_eq_exec_microStep hs.agenda (by rw [hs.phase]; exact hi), h]

/-- The echo loop with `n` taps left is `n + 1` transitions of the stepped reading, the last of them the
fall-through at PHASE 6 (R41). -/
theorem run_of_tapLoop {fuel : Nat} : ∀ {s t : State} {p : Snapshot} {r n : Nat}, EngineAt .tap s →
    s.snap = some p → s.r = some r → r + n = p.rep + 1 → n < fuel → tapLoop fuel s = .next t →
    Sys2Proof.core.run (n + 1) s = .next t ∧ EngineAt .shim t := by
  induction fuel with
  | zero => intro s t p r n _ _ _ _ hn; omega
  | succ fuel ih =>
    intro s t p r n hs hp hr hrn hn h
    rw [tapLoop, hs.phase] at h
    obtain ⟨u, hu, hloop⟩ := andThen_eq_next.1 h
    have hstep : step s = .next u := by
      rw [step_eq_exec_microStep hs.agenda (i := .tap) (by rw [hs.phase]; rfl)]; exact hu
    have hf := execTap_frame hu
    have hagenda : u.agenda = [] := hf.agenda.trans hs.agenda
    obtain ⟨p', r', hp', hr', -, hcase⟩ := execTap_eq_next.1 hu
    obtain rfl : p = p' := Option.some.inj (hp.symm.trans hp')
    obtain rfl : r = r' := Option.some.inj (hr.symm.trans hr')
    rcases hcase with ⟨hlt, hu⟩ | ⟨hle, i, a, -, -, -, hu⟩
    · have hphase : u.phase = .shim := by rw [hu]
      obtain rfl : t = u := by
        cases fuel <;> simpa only [tapLoop, hphase, next_eq_next] using hloop
      obtain rfl : n = 0 := by omega
      exact ⟨run_cons hstep rfl, hphase, hagenda⟩
    · obtain ⟨m, rfl⟩ : ∃ m, n = m + 1 := ⟨n - 1, by omega⟩
      have hphase : u.phase = .tap := by rw [hu]
      have hru : u.r = some (r + 1) := by rw [hu]
      have hsnap : u.snap = some p := (hf.snap (by decide) (by decide)).trans hp
      obtain ⟨hrun, ht⟩ := ih ⟨hphase, hagenda⟩ hsnap hru (n := m) (by omega) (by omega) hloop
      exact ⟨run_cons hstep hrun, ht⟩

/-- What the atomic reading does in one transition after the start, the stepped reading does in
`10 + S_REP` (R9, R86; log 19). -/
theorem run_of_runInvocation {s t : State} (hs : EngineAt .latch s) (hrep : s.pRep ≤ Config.maxRepeats)
    (h : runInvocation s = .next t) : Sys2Proof.core.run (10 + s.pRep) s = .next t := by
  obtain ⟨a, b, c, d, e, f, g, k, l, hlatch, hacq, hstore, hread, hseed, htaps, hshim, hmix, hemit, hadv⟩ :=
    runInvocation_eq_next.1 h
  obtain ⟨-, hread⟩ := selectReadIndex_eq_next.1 hread
  obtain ⟨stepLatch, ha⟩ := engine_moves (i := .latch) hs (by decide) rfl hlatch
  obtain ⟨stepAcq, hb⟩ := engine_moves (i := .acq) ha (by decide) rfl hacq
  obtain ⟨stepStore, hc⟩ := engine_moves (i := .store) hb (by decide) rfl hstore
  obtain ⟨stepRead, hd⟩ := engine_moves hc (by decide) rfl hread
  obtain ⟨stepSeed, he⟩ := engine_moves (i := .seed) hd (by decide) rfl hseed
  have hsnap : e.snap = some (readParams s) := by
    have seed := (microStep_frame (rev := false) (p := .seed) rfl hseed).snap (by decide) (by decide)
    have read := (microStep_frame (p := .rdidx) rfl hread).snap (by decide) (by decide)
    have store := (microStep_frame (rev := false) (p := .store) rfl hstore).snap (by decide) (by decide)
    have acq := (microStep_frame (rev := false) (p := .acq) rfl hacq).snap (by decide) (by decide)
    rw [seed, read, store, acq, execLatch_eq_next.1 hlatch]
  have hr : e.r = some 1 := by
    obtain ⟨i, -, -, rfl⟩ := execSeed_eq_next.1 hseed
    rfl
  obtain ⟨runTaps, hf⟩ := run_of_tapLoop he hsnap hr (n := s.pRep) (Nat.add_comm _ _) (by omega) htaps
  obtain ⟨stepShim, hg⟩ := engine_moves (i := .shim) hf (by decide) rfl hshim
  obtain ⟨stepMix, hk⟩ := engine_moves (i := .mix) hg (by decide) rfl hmix
  obtain ⟨stepEmit, hl⟩ := engine_moves (i := .emit) hk (by decide) rfl hemit
  obtain ⟨stepAdv, -⟩ := engine_moves (i := .adv) hl (by decide) rfl hadv
  have front : Sys2Proof.core.run 5 s = .next e :=
    run_cons stepLatch (run_cons stepAcq (run_cons stepStore (run_cons stepRead (run_cons stepSeed rfl))))
  have back : Sys2Proof.core.run 4 f = .next t :=
    run_cons stepShim (run_cons stepMix (run_cons stepEmit (run_cons stepAdv rfl)))
  rw [show 10 + s.pRep = 5 + (s.pRep + 1) + 4 by omega]
  exact run_append (run_append front runTaps) back

/-! The atomic reading in closed form (R110), cut where the echo loop begins and ends. -/

/-- The state at the first TAP of an invocation with input `x` (R111 to R114, R140). -/
def seeded (s : State) (x : Nat) : State :=
  { afterStore (startInvocation x s) x with
    snap := some (readParams s)
    x := some x
    ri := some (forwardIndex s.cfg.capacity s.wc s.pDelay)
    acc := some (entry (afterStore s x) (forwardIndex s.cfg.capacity s.wc s.pDelay))
    r := some 1
    phase := .tap }

/-- The state after the echo loop, with `EI` at the last tap's index or without a value (R141). -/
def echoed (s : State) (x : Nat) (ei : Option Nat) : State :=
  { seeded s x with
    ei := ei
    acc := some (delayedSample s x)
    r := some (s.pRep + 1)
    phase := .shim }

/-- The two RDIDX forms compute the one index (R116). -/
theorem selectReadIndex_of_snap {s : State} {p : Snapshot} (hp : s.snap = some p)
    (hd : p.delay < s.cfg.capacity) :
    selectReadIndex s =
      .next { s with ri := some (forwardIndex s.cfg.capacity s.wc p.delay), phase := .seed } := by
  refine selectReadIndex_eq_next.2 ⟨by rw [hp]; rfl, ?_⟩
  cases latchedRev s
  · exact setReadIndex_eq_next.2 ⟨p, hp, hd, rfl⟩
  · exact setReadIndex_eq_next.2 ⟨p, hp, hd, by rw [reverseIndex_eq_forwardIndex]⟩

/-- From the start to the first TAP (R86). -/
theorem start_reaches_seeded {s : State} (x : Nat) (h : s.Legal) :
    ∃ a b c d, execLatch (startInvocation x s) = .next a ∧ execAcq a = .next b ∧
      execStore b = .next c ∧ selectReadIndex c = .next d ∧ execSeed d = .next (seeded s x) := by
  have hpos : 0 < s.cfg.capacity := Nat.zero_lt_of_lt h.wc
  refine ⟨_, _, _, _, rfl, rfl, execStore_eq_next.2 ⟨x, rfl, h.wc, rfl⟩,
    selectReadIndex_of_snap rfl h.delay_lt, execSeed_eq_next.2 ⟨_, rfl, forwardIndex_lt _ _ hpos, ?_⟩⟩
  rfl

/-- The echo loop adds the whole tap sum (R141 item d). -/
theorem tapLoop_seeded {s : State} (x : Nat) (h : s.Legal) :
    ∃ ei, tapLoop (Config.maxRepeats + 1) (seeded s x) = .next (echoed s x ei) := by
  have hsum : ∀ n, tapSum (seeded s x) (forwardIndex s.cfg.capacity s.wc s.pDelay) s.pDelay n =
      tapSum (afterStore s x) (forwardIndex s.cfg.capacity s.wc s.pDelay) s.pDelay n :=
    tapSum_congr (afterStore s x) (seeded s x) rfl rfl rfl _ _
  have hrep := h.rep
  obtain ⟨ei, hloop⟩ := tapLoop_adds (Config.maxRepeats + 1) (seeded s x) (readParams s) 0
    (forwardIndex s.cfg.capacity s.wc s.pDelay)
    (entry (afterStore s x) (forwardIndex s.cfg.capacity s.wc s.pDelay))
    rfl rfl rfl rfl rfl (Nat.zero_le _) hrep (Nat.zero_lt_of_lt h.wc) (by simp [readParams]; omega)
  refine ⟨ei, hloop.trans ?_⟩
  simp only [readParams, hsum]
  rfl

/-- SHIM's result is the shimmer stage of R150 in closed form. -/
theorem shimApply_eq_shimmered (c : Config) (a k : Nat) :
    shimApply (shimSign c (lowBits c a)) a (shimDelta c a k) = shimmered c a k := by
  unfold shimSign shimmered lowBits shimDelta
  split <;> rfl

/-- From the end of the echo loop to the end of the invocation (R86). -/
theorem echoed_reaches_afterTick {s : State} (x : Nat) (ei : Option Nat) (h : s.Legal) :
    ∃ a b c, execShim (echoed s x ei) = .next a ∧ execMix a = .next b ∧ execEmit b = .next c ∧
      execAdv c = .next (afterTick s x) := by
  refine ⟨_, _, _, execShim_eq_next.2 ⟨_, _, rfl, rfl, h.shim, rfl⟩,
    execMix_eq_next.2 ⟨x, _, _, rfl, rfl, rfl, h.wet, rfl⟩, execEmit_eq_next.2 ⟨_, rfl, rfl⟩,
    execAdv_eq_next.2 ?_⟩
  rw [afterTick, tickOutput, ← shimApply_eq_shimmered, ← crossfade, ← outputOf_eq_min]
  rfl

/-- R110: one invocation of the atomic reading, from its start, in closed form. -/
theorem runInvocation_start {s : State} (x : Nat) (h : s.Legal) :
    runInvocation (startInvocation x s) = .next (afterTick s x) := by
  obtain ⟨a, b, c, d, hlatch, hacq, hstore, hread, hseed⟩ := start_reaches_seeded x h
  obtain ⟨ei, htaps⟩ := tapLoop_seeded x h
  obtain ⟨g, k, l, hshim, hmix, hemit, hadv⟩ := echoed_reaches_afterTick x ei h
  exact runInvocation_eq_next.2
    ⟨a, b, c, d, _, _, g, k, l, hlatch, hacq, hstore, hread, hseed, htaps, hshim, hmix, hemit, hadv⟩

/-- Settles O29: the stepped reading follows the atomic one, whose closed form is `afterTick`. -/
theorem steppedInvocationEqualsAtomic : Obligations.SteppedInvocationEqualsAtomic := by
  intro s x h hidle hstepped hagenda _
  constructor
  · exact execTick_eq_next.2 ⟨hidle, .inl ⟨hstepped, rfl⟩⟩
  · exact run_of_runInvocation (s := startInvocation x s) ⟨rfl, hagenda⟩ h.rep (runInvocation_start x h)

/-! What no step changes (R6, R21). -/

section Kept

variable {α : Type} {f : State → α}
  (hf : ∀ (rev : Bool) (p : Phase) (i : Instr) (s t : State),
    microStep rev p = some i → exec i s = .next t → f t = f s)
include hf

theorem tapLoop_keeps {fuel : Nat} {s t : State} (h : tapLoop fuel s = .next t) : f t = f s := by
  induction fuel generalizing s with
  | zero => rw [next_eq_next.1 h]
  | succ fuel ih =>
    rw [tapLoop] at h
    split at h
    · obtain ⟨u, hu, hloop⟩ := andThen_eq_next.1 h
      exact (ih hloop).trans (hf false .tap .tap s u rfl hu)
    · rw [next_eq_next.1 h]

/-- What every micro-step keeps, an invocation of the atomic reading keeps (R86). -/
theorem runInvocation_keeps {s t : State} (h : runInvocation s = .next t) : f t = f s := by
  obtain ⟨a, b, c, d, e, g, k, l, m, hlatch, hacq, hstore, hread, hseed, htaps, hshim, hmix, hemit, hadv⟩ :=
    runInvocation_eq_next.1 h
  obtain ⟨-, hread⟩ := selectReadIndex_eq_next.1 hread
  calc f t = f m := hf false .adv .adv m t rfl hadv
    _ = f l := hf false .emit .emit l m rfl hemit
    _ = f k := hf false .mix .mix k l rfl hmix
    _ = f g := hf false .shim .shim g k rfl hshim
    _ = f e := tapLoop_keeps hf htaps
    _ = f d := hf false .seed .seed d e rfl hseed
    _ = f c := hf (latchedRev c) .rdidx _ c d rfl hread
    _ = f b := hf false .store .store b c rfl hstore
    _ = f a := hf false .acq .acq a b rfl hacq
    _ = f s := hf false .latch .latch s a rfl hlatch

end Kept

/-- TICK leaves the configuration in either reading. -/
theorem execTick_cfg {x : Nat} {s t : State} (h : execTick x s = .next t) : t.cfg = s.cfg := by
  obtain ⟨-, ⟨-, rfl⟩ | ⟨-, hrun⟩⟩ := execTick_eq_next.1 h
  · rfl
  · have hmicro := fun rev p i s t (hi : microStep rev p = some i) (h : exec i s = .next t) =>
      (microStep_frame hi h).cfg
    simpa using runInvocation_keeps (f := State.cfg) hmicro hrun

/-- Settles O49: whatever a step has done, it was made of parts that keep the configuration. -/
theorem stepsKeepConfiguration : Obligations.StepsKeepConfiguration := by
  intro s t h
  obtain ⟨r, rfl | ⟨rev, i, hi, hexec⟩ | rfl | ⟨reg, v, -, rfl⟩ | ⟨x, -, htick⟩⟩ := step_cases h
  · exact withAgenda_cfg r s
  · exact (microStep_frame hi hexec).cfg.trans (withAgenda_cfg r s)
  · rfl
  · exact setParam_cfg reg v (withAgenda r s)
  · exact (execTick_cfg htick).trans (withAgenda_cfg r s)

/-! A parameter register beside the micro-steps that work from the latches (R9, R36). -/

theorem setReadIndex_setParam {f : Nat → Nat → Nat → Nat} {reg : ParamReg} {v : Nat} {s t : State}
    (h : setReadIndex f s = .next t) : setReadIndex f (setParam reg v s) = .next (setParam reg v t) := by
  obtain ⟨p, hp, hd, rfl⟩ := setReadIndex_eq_next.1 h
  exact setReadIndex_eq_next.2 ⟨p, by simpa, by simpa, by cases reg <;> rfl⟩

theorem execTap_setParam {reg : ParamReg} {v : Nat} {s t : State} (h : execTap s = .next t) :
    execTap (setParam reg v s) = .next (setParam reg v t) := by
  obtain ⟨p, r, hp, hr, hrep, ⟨hlt, rfl⟩ | ⟨hle, i, a, hi, ha, he, rfl⟩⟩ := execTap_eq_next.1 h
  · exact execTap_eq_next.2 ⟨p, r, by simpa, by simpa, hrep, .inl ⟨hlt, by cases reg <;> rfl⟩⟩
  · exact execTap_eq_next.2 ⟨p, r, by simpa, by simpa, hrep,
      .inr ⟨hle, i, a, by simpa, by simpa, by simpa, by cases reg <;> rfl⟩⟩

/-- Settles O31: each micro-step after LATCH reads the latches and the working registers only, so it answers
the same from the state with a parameter register changed. -/
theorem writesCommuteWithMicroSteps : Obligations.WritesCommuteWithMicroSteps := by
  intro i reg v s t hi h
  simp only [List.mem_cons, List.not_mem_nil, or_false] at hi
  rcases hi with rfl | rfl | rfl | rfl | rfl | rfl | rfl | rfl | rfl | rfl
  · obtain rfl := execAcq_eq_next.1 h
    exact execAcq_eq_next.2 (by cases reg <;> rfl)
  · obtain ⟨x, hx, hwc, rfl⟩ := execStore_eq_next.1 h
    exact execStore_eq_next.2 ⟨x, by simpa, by simpa, by cases reg <;> rfl⟩
  · exact setReadIndex_setParam h
  · exact setReadIndex_setParam h
  · obtain ⟨i, hi, hlt, rfl⟩ := execSeed_eq_next.1 h
    exact execSeed_eq_next.2 ⟨i, by simpa, by simpa, by cases reg <;> rfl⟩
  · exact execTap_setParam h
  · obtain ⟨a, p, ha, hp, hk, rfl⟩ := execShim_eq_next.1 h
    exact execShim_eq_next.2 ⟨a, p, by simpa, by simpa, by simpa, by cases reg <;> rfl⟩
  · obtain ⟨x, y, p, hx, hy, hp, hk, rfl⟩ := execMix_eq_next.1 h
    exact execMix_eq_next.2 ⟨x, y, p, by simpa, by simpa, by simpa, by simpa, by cases reg <;> rfl⟩
  · obtain ⟨m, hm, rfl⟩ := execEmit_eq_next.1 h
    exact execEmit_eq_next.2 ⟨m, by simpa, by cases reg <;> rfl⟩
  · obtain rfl := execAdv_eq_next.1 h
    exact execAdv_eq_next.2 (by cases reg <;> rfl)

/-! The tap scaling (R12 item e). -/

/-- The default parameters obey R6. -/
theorem configDefaults_legal : Config.defaults.Legal :=
  legal_of_table_nil rfl (by decide) (by decide) (by decide) (by decide) (by decide) (by decide) (by decide)
    (by decide)

/-- A table that lists every argument of `[0, FS]` with its value there is the function it lists. -/
theorem echoScale_of_listed (c : Config) (f : Nat → Nat) {t : Nat} (ht : t ≤ c.fs) :
    echoScale { c with echoTable := (List.range (c.fs + 1)).map (fun a => (a, f a)) } t = f t := by
  have hmem : t ∈ List.range (c.fs + 1) := List.mem_range.2 (Nat.lt_succ_of_le ht)
  simp only [echoScale, List.lookup_graph f hmem]

/-- Settles O36: the last two named properties leave one natural number for each argument. -/
theorem echoScaleIsDetermined : Obligations.EchoScaleIsDetermined := by
  refine ⟨fun c hc => ?_, configDefaults_legal, fun c f t => echoScale_of_listed c f,
    fun c hc t ht => echoScale_eq_default hc ht, fun f hf => funext fun t => ?_⟩
  · simp only [echoScale_of_table_nil hc]
    exact ⟨rfl, fun _ _ => defaultEchoScale_mono, defaultEchoScale_le, defaultEchoScale_bounds⟩
  · have hdefault := defaultEchoScale_bounds t
    have hft := hf t
    rw [echoScale_of_table_nil rfl]
    omega

/-! The derived widths (R7). -/

theorem fs_lt (c : Config) : c.fs < 2 ^ c.sampleW := Nat.sub_one_lt (Nat.two_pow_pos _).ne'

theorem one_lt (c : Config) : c.one < 2 ^ (c.coefFrac + 1) := Nat.pow_lt_pow_succ Nat.one_lt_two

/-- `IDX_W` bits hold every index. -/
theorem capacity_le_two_pow_idxW (c : Config) : c.capacity ≤ 2 ^ c.idxW := by
  have h : c.capacity - 1 < 2 ^ c.idxW := Nat.lt_log2_self
  omega

theorem two_pow_accW (c : Config) : 2 ^ c.accW = 4 * 2 ^ c.sampleW := by
  rw [Config.accW, Nat.pow_add, Nat.mul_comm]

theorem two_pow_shW (c : Config) : 2 ^ c.shW = 8 * 2 ^ c.sampleW := by
  rw [Config.shW, Nat.pow_add, Nat.mul_comm]

theorem two_pow_mixW (c : Config) : 2 ^ c.mixW = 2 ^ c.shW * c.one := Nat.pow_add 2 _ _

/-- The echo index sum before its reduction fits `IDX_W + 3` bits: at most five steps from an index. -/
theorem echo_index_sum_lt {c : Config} {i r d : Nat} (hi : i < c.capacity) (hr : r ≤ 5)
    (hd : d < c.capacity) : i + r * d < 2 ^ (c.idxW + 3) := by
  have hcap := capacity_le_two_pow_idxW c
  have hrd : r * d ≤ 5 * d := Nat.mul_le_mul_right d hr
  rw [Nat.pow_add]
  omega

/-- The mix numerator, and with it `MIXW`, is bounded by the larger input. -/
theorem mix_numerator_lt {c : Config} {x h w b : Nat} (hw : w ≤ c.one) (hx : x < b) (hh : h < b) :
    x * (c.one - w) + h * w < b * c.one := by
  have hmix : crossfade c x h w < b :=
    Nat.lt_of_le_of_lt (crossfade_between hw).2 (Nat.max_lt.2 ⟨hx, hh⟩)
  exact (Nat.div_lt_iff_lt_mul (one_pos c)).1 hmix

/-- A register written earlier in the invocation holds a value when one written later does (R34). -/
theorem written_before {α β : Type} {u : Option α} {v : Option β} {j k n : Nat} {b : β}
    (hu : u.isSome = decide (j < n)) (hv : v.isSome = decide (k < n)) (hjk : j ≤ k) (hb : v = some b) :
    ∃ a, u = some a := by
  have hk : k < n := by simpa [hb] using hv
  exact Option.isSome_iff_exists.1 (hu.trans (decide_eq_true (Nat.lt_of_le_of_lt hjk hk)))

namespace State.Inv

variable {s : State} (hs : s.Inv)
include hs

theorem sampleIn_lt {v : Nat} (h : s.sampleIn = some v) : v < 2 ^ s.cfg.sampleW :=
  Nat.lt_of_le_of_lt (hs.ranges.sampleIn v h) (fs_lt _)

theorem x_lt {v : Nat} (h : s.x = some v) : v < 2 ^ s.cfg.sampleW := hs.sampleIn_lt (hs.ranges.x v h)

/-- `R` is at most one above the latched repeat count (R41). -/
theorem r_le {r : Nat} (h : s.r = some r) : r ≤ 6 := by
  obtain ⟨p, hp⟩ := written_before hs.presence.snap hs.presence.r (by decide) h
  obtain ⟨-, -, hrep, -, -⟩ := hs.ranges.snap p hp
  have hle := (hs.ranges.r r h).2 p hp
  have : Config.maxRepeats = 5 := rfl
  omega

/-- `ACC` at most five taps of at most two fifths of the full scale above it (R35, R142). -/
theorem acc_le {a : Nat} (h : s.acc = some a) : a ≤ 3 * s.cfg.fs := by
  obtain ⟨r, hr⟩ := written_before hs.presence.r hs.presence.acc (Nat.le_refl 5) h
  have hbound := hs.ranges.acc a h r hr
  have htaps : (r - 1) * echoScale s.cfg s.cfg.fs ≤ 5 * echoScale s.cfg s.cfg.fs :=
    Nat.mul_le_mul_right _ (Nat.sub_le_sub_right (hs.r_le hr) 1)
  have hscale := hs.legal.cfg.echo_below s.cfg.fs (Nat.le_refl _)
  omega

theorem acc_lt {a : Nat} (h : s.acc = some a) : a < 2 ^ s.cfg.accW := by
  have hle := hs.acc_le h
  have hfs := fs_lt s.cfg
  rw [two_pow_accW]
  omega

theorem delta_lt {d : Nat} (h : s.delta = some d) : d < 2 ^ s.cfg.accW := by
  obtain ⟨a, ha⟩ := written_before hs.presence.acc hs.presence.delta (by decide) h
  exact Nat.lt_of_le_of_lt (hs.ranges.delta d h a ha) (hs.acc_lt ha)

theorem sh_lt {v : Nat} (h : s.sh = some v) : v < 2 ^ s.cfg.shW := by
  obtain ⟨a, ha⟩ := written_before hs.presence.acc hs.presence.sh (by decide) h
  have hle := hs.ranges.sh v h a ha
  have hacc := hs.acc_le ha
  have hfs := fs_lt s.cfg
  rw [two_pow_shW]
  omega

theorem x_lt_shW {v : Nat} (h : s.x = some v) : v < 2 ^ s.cfg.shW := by
  have hx := hs.x_lt h
  rw [two_pow_shW]
  omega

theorem mixw_lt {m : Nat} (h : s.mixw = some m) : m < 2 ^ s.cfg.shW := by
  obtain ⟨x, hx⟩ := written_before hs.presence.x hs.presence.mixw (by decide) h
  obtain ⟨v, hv⟩ := written_before hs.presence.sh hs.presence.mixw (by decide) h
  exact Nat.lt_of_le_of_lt (hs.ranges.mixw m h x v hx hv).2 (Nat.max_lt.2 ⟨hs.x_lt_shW hx, hs.sh_lt hv⟩)

end State.Inv

/-- Settles O59: each register in the order of the statement, by its range in the invariant. -/
theorem derivedWidthsSuffice : Obligations.DerivedWidthsSuffice := by
  intro s hs
  have hidx : ∀ {i}, i < s.cfg.capacity → i < 2 ^ s.cfg.idxW := fun h =>
    Nat.lt_of_lt_of_le h (capacity_le_two_pow_idxW _)
  have hdata : ∀ {i}, i < s.cfg.capacity → i < 2 ^ s.cfg.dataW := fun h =>
    Nat.lt_of_lt_of_le h hs.legal.cfg.capacity_le
  have hcoef : ∀ {k}, k ≤ s.cfg.one → k < 2 ^ (s.cfg.coefFrac + 1) := fun h =>
    Nat.lt_of_le_of_lt h (one_lt _)
  have hcount : ∀ {n}, n ≤ Config.maxRepeats → n < 2 ^ 3 := fun h => Nat.lt_of_le_of_lt h (by decide)
  refine ⟨hidx hs.legal.wc, hdata hs.legal.delay_lt, hcount hs.legal.rep, hcoef hs.legal.wet,
    hcoef hs.legal.shim, ?latches, fun v => hs.sampleIn_lt, hs.ranges.low, ?phase,
    hidx hs.legal.delay_lt, fun v => hs.x_lt, fun i h => hidx (hs.ranges.ri i h),
    fun i h => hidx (hs.ranges.ei i h), fun r h => Nat.lt_of_le_of_lt (hs.r_le h) (by decide), ?indexSum,
    fun a h => ⟨hs.acc_le h, hs.acc_lt h⟩, fun d => hs.delta_lt, fun v => hs.sh_lt, ?numerator,
    fun m => hs.mixw_lt, fun y h => Nat.lt_of_le_of_lt (hs.ranges.y y h) (fs_lt _)⟩
  case latches =>
    intro p hp
    obtain ⟨-, hdelay, hrep, hwet, hshim⟩ := hs.ranges.snap p hp
    exact ⟨hdata hdelay, hidx hdelay, hcount hrep, hcoef hwet, hcoef hshim⟩
  case phase => cases s.phase <;> decide
  case indexSum =>
    intro i p r hi hp hr
    obtain ⟨-, hdelay, hrep, -, -⟩ := hs.ranges.snap p hp
    exact echo_index_sum_lt (hs.ranges.ri i hi) (hr.trans hrep) hdelay
  case numerator =>
    intro v h p hx hh hp
    obtain ⟨-, -, -, hwet, -⟩ := hs.ranges.snap p hp
    rw [two_pow_mixW]
    exact mix_numerator_lt hwet (hs.x_lt_shW hx) (hs.sh_lt hh)

end Sys2Proof.Machine

/-! Who owns what persists: the parameters, the buffer, the cursor and the trace, instruction by instruction
(`spec/10_state.md` R21, R23, R25, R33). -/

namespace Sys2Proof.Machine

open Sys2Proof

/-- What the micro-step of phase `p` leaves of the persistent state: all of it, but for the one part that
STORE, EMIT and ADV each own (R60, R163, R118). -/
structure MicroOwnership (p : Phase) (s t : State) : Prop where
  params : readParams t = readParams s
  draw : t.draw = s.draw
  buf : p ≠ .store → t.buf = s.buf
  emitted : p ≠ .emit → t.emitted = s.emitted
  wc : p ≠ .adv → t.wc = s.wc

theorem setReadIndex_ownership {f : Nat → Nat → Nat → Nat} {s t : State}
    (h : setReadIndex f s = .next t) : MicroOwnership .rdidx s t := by
  obtain ⟨p, -, -, rfl⟩ := setReadIndex_eq_next.1 h
  exact ⟨rfl, rfl, fun _ => rfl, fun _ => rfl, fun _ => rfl⟩

theorem execTap_ownership {s t : State} (h : execTap s = .next t) : MicroOwnership .tap s t := by
  obtain ⟨p, r, -, -, -, ⟨-, rfl⟩ | ⟨-, i, a, -, -, -, rfl⟩⟩ := execTap_eq_next.1 h
  · exact ⟨rfl, rfl, fun _ => rfl, fun _ => rfl, fun _ => rfl⟩
  · exact ⟨rfl, rfl, fun _ => rfl, fun _ => rfl, fun _ => rfl⟩

theorem microStep_ownership {rev : Bool} {p : Phase} {i : Instr} {s t : State}
    (hi : microStep rev p = some i) (h : exec i s = .next t) : MicroOwnership p s t := by
  cases p <;> simp only [microStep, Option.some.injEq, reduceCtorEq] at hi <;> subst hi
  case latch =>
    obtain rfl := execLatch_eq_next.1 h
    exact ⟨rfl, rfl, fun _ => rfl, fun _ => rfl, fun _ => rfl⟩
  case acq =>
    obtain rfl := execAcq_eq_next.1 h
    exact ⟨rfl, rfl, fun _ => rfl, fun _ => rfl, fun _ => rfl⟩
  case store =>
    obtain ⟨v, -, -, rfl⟩ := execStore_eq_next.1 h
    exact ⟨rfl, rfl, fun h => absurd rfl h, fun _ => rfl, fun _ => rfl⟩
  case rdidx => cases rev <;> exact setReadIndex_ownership h
  case seed =>
    obtain ⟨i, -, -, rfl⟩ := execSeed_eq_next.1 h
    exact ⟨rfl, rfl, fun _ => rfl, fun _ => rfl, fun _ => rfl⟩
  case tap => exact execTap_ownership h
  case shim =>
    obtain ⟨a, p, -, -, -, rfl⟩ := execShim_eq_next.1 h
    exact ⟨rfl, rfl, fun _ => rfl, fun _ => rfl, fun _ => rfl⟩
  case mix =>
    obtain ⟨v, w, p, -, -, -, -, rfl⟩ := execMix_eq_next.1 h
    exact ⟨rfl, rfl, fun _ => rfl, fun _ => rfl, fun _ => rfl⟩
  case emit =>
    obtain ⟨m, -, rfl⟩ := execEmit_eq_next.1 h
    exact ⟨rfl, rfl, fun _ => rfl, fun h => absurd rfl h, fun _ => rfl⟩
  case adv =>
    obtain rfl := execAdv_eq_next.1 h
    exact ⟨rfl, rfl, fun _ => rfl, fun _ => rfl, fun h => absurd rfl h⟩

/-- A micro-step that owns no part of the persistent state keeps all of it. -/
theorem microStep_samePersistent {rev : Bool} {p : Phase} {i : Instr} {s t : State}
    (hi : microStep rev p = some i) (hp : p ≠ .store ∧ p ≠ .emit ∧ p ≠ .adv) (h : exec i s = .next t) :
    s.SamePersistent t := by
  obtain ⟨hcfg, hagenda, -, -⟩ := microStep_frame hi h
  obtain ⟨hparams, hdraw, hbuf, hemitted, hwc⟩ := microStep_ownership hi h
  obtain ⟨hstore, hemit, hadv⟩ := hp
  simp only [readParams, Snapshot.mk.injEq] at hparams
  obtain ⟨hdelay, hrev, hrep, hwet, hshim⟩ := hparams
  exact ⟨hcfg, hbuf hstore, hdraw, hwc hadv, hdelay, hrev, hrep, hwet, hshim, hagenda, hemitted hemit⟩

/-- Settles O45: each of the eight is the micro-step of a phase that owns nothing. -/
theorem computingStepsKeepPersistentState : Obligations.ComputingStepsKeepPersistentState := by
  intro i s t hi h
  obtain ⟨rev, p, hp, hi⟩ :
      ∃ rev p, (p ≠ .store ∧ p ≠ .emit ∧ p ≠ .adv) ∧ microStep rev p = some i := by
    simp only [List.mem_cons, List.not_mem_nil, or_false] at hi
    rcases hi with rfl | rfl | rfl | rfl | rfl | rfl | rfl | rfl
    · exact ⟨false, .latch, by decide, rfl⟩
    · exact ⟨false, .acq, by decide, rfl⟩
    · exact ⟨false, .rdidx, by decide, rfl⟩
    · exact ⟨true, .rdidx, by decide, rfl⟩
    · exact ⟨false, .seed, by decide, rfl⟩
    · exact ⟨false, .tap, by decide, rfl⟩
    · exact ⟨false, .shim, by decide, rfl⟩
    · exact ⟨false, .mix, by decide, rfl⟩
  have hsame := microStep_samePersistent hi hp h
  exact ⟨hsame, entry_congr s t hsame.buf hsame.draw hsame.cfg⟩

/-- The write of `v` to a parameter register (R175 to R179). -/
def writeInstr (reg : ParamReg) (v : Nat) : Instr :=
  match reg with
  | .delay => .wrDelay v
  | .rev => .wrRev v
  | .rep => .wrRep v
  | .wet => .wrWet v
  | .shim => .wrShim v

theorem exec_writeInstr (reg : ParamReg) (v : Nat) (s : State) :
    exec (writeInstr reg v) s = writeParam reg v s := by
  cases reg <;> rfl

theorem exec_writeInstr_eq_setParam {reg : ParamReg} {v : Nat} {s t : State}
    (h : exec (writeInstr reg v) s = .next t) : t = setParam reg v s :=
  (writeParam_eq_next.1 (exec_writeInstr reg v s ▸ h)).2

/-- Only four kinds of instruction answer a next state; the reserved register numbers never do (R80, R90). -/
theorem completing_cases {i : Instr} {s t : State} (h : exec i s = .next t) :
    (∃ x, i = .tick x) ∨ i = .reset ∨ (∃ reg v, i = writeInstr reg v) ∨
      ∃ rev p, microStep rev p = some i := by
  cases i
  case tick x => exact .inl ⟨x, rfl⟩
  case reset => exact .inr (.inl rfl)
  case wrDelay v => exact .inr (.inr (.inl ⟨.delay, v, rfl⟩))
  case wrRev v => exact .inr (.inr (.inl ⟨.rev, v, rfl⟩))
  case wrRep v => exact .inr (.inr (.inl ⟨.rep, v, rfl⟩))
  case wrWet v => exact .inr (.inr (.inl ⟨.wet, v, rfl⟩))
  case wrShim v => exact .inr (.inr (.inl ⟨.shim, v, rfl⟩))
  case reservedSel5 data => cases h
  case reservedSel67 low data => cases h
  case latch => exact .inr (.inr (.inr ⟨false, .latch, rfl⟩))
  case acq => exact .inr (.inr (.inr ⟨false, .acq, rfl⟩))
  case store => exact .inr (.inr (.inr ⟨false, .store, rfl⟩))
  case rdidxF => exact .inr (.inr (.inr ⟨false, .rdidx, rfl⟩))
  case rdidxR => exact .inr (.inr (.inr ⟨true, .rdidx, rfl⟩))
  case seed => exact .inr (.inr (.inr ⟨false, .seed, rfl⟩))
  case tap => exact .inr (.inr (.inr ⟨false, .tap, rfl⟩))
  case shim => exact .inr (.inr (.inr ⟨false, .shim, rfl⟩))
  case mix => exact .inr (.inr (.inr ⟨false, .mix, rfl⟩))
  case emit => exact .inr (.inr (.inr ⟨false, .emit, rfl⟩))
  case adv => exact .inr (.inr (.inr ⟨false, .adv, rfl⟩))

/-- What every micro-step and the start of an invocation keep, TICK keeps in either reading (R9, R86). -/
theorem execTick_keeps {α : Type} {f : State → α}
    (hf : ∀ (rev : Bool) (p : Phase) (i : Instr) (s t : State),
      microStep rev p = some i → exec i s = .next t → f t = f s)
    {x : Nat} {s t : State} (hstart : f (startInvocation x s) = f s) (h : execTick x s = .next t) :
    f t = f s := by
  obtain ⟨-, ⟨-, rfl⟩ | ⟨-, hrun⟩⟩ := execTick_eq_next.1 h
  · exact hstart
  · exact (runInvocation_keeps hf hrun).trans hstart

theorem execTick_readParams {x : Nat} {s t : State} (h : execTick x s = .next t) :
    readParams t = readParams s :=
  execTick_keeps (f := readParams) (fun _ _ _ _ _ hi h => (microStep_ownership hi h).params) rfl h

theorem execTick_draw {x : Nat} {s t : State} (h : execTick x s = .next t) : t.draw = s.draw :=
  execTick_keeps (f := State.draw) (fun _ _ _ _ _ hi h => (microStep_ownership hi h).draw) rfl h

/-- A write leaves everything but the five registers. -/
theorem setParam_frame (reg : ParamReg) (v : Nat) (s : State) :
    setParam reg v s = { s with
      pDelay := (setParam reg v s).pDelay, pRev := (setParam reg v s).pRev
      pRep := (setParam reg v s).pRep, pWet := (setParam reg v s).pWet
      pShim := (setParam reg v s).pShim } := by
  cases reg <;> rfl

theorem entry_setParam (reg : ParamReg) (v : Nat) (s : State) (j : Nat) :
    entry (setParam reg v s) j = entry s j :=
  entry_congr s _ (by simp) (by simp) (by simp) j

/-- Settles O46: of the four kinds that complete, TICK and the micro-steps keep the Parameter Set. -/
theorem onlyControlWritesParameters : Obligations.OnlyControlWritesParameters := by
  constructor
  · intro i s t h hne
    obtain ⟨x, rfl⟩ | rfl | ⟨reg, v, rfl⟩ | ⟨rev, p, hi⟩ := completing_cases h
    · exact absurd (execTick_readParams h) hne
    · exact .inl rfl
    · cases reg <;> simp [writeInstr]
    · exact absurd (microStep_ownership hi h).params hne
  · intro v i s t hi h
    obtain ⟨reg, rfl⟩ : ∃ reg, i = writeInstr reg v := by
      simp only [List.mem_cons, List.not_mem_nil, or_false] at hi
      rcases hi with rfl | rfl | rfl | rfl | rfl
      · exact ⟨.delay, rfl⟩
      · exact ⟨.rev, rfl⟩
      · exact ⟨.rep, rfl⟩
      · exact ⟨.wet, rfl⟩
      · exact ⟨.shim, rfl⟩
    obtain rfl := exec_writeInstr_eq_setParam h
    exact ⟨setParam_frame reg v s, entry_setParam reg v s⟩

/-- What TAP preserves, the echo loop preserves. -/
theorem tapLoop_preserves {P : State → Prop} (htap : ∀ s t, P s → execTap s = .next t → P t)
    {fuel : Nat} {s t : State} (hs : P s) (h : tapLoop fuel s = .next t) : P t := by
  induction fuel generalizing s with
  | zero => exact next_eq_next.1 h ▸ hs
  | succ fuel ih =>
    rw [tapLoop] at h
    split at h
    · obtain ⟨u, hu, hloop⟩ := andThen_eq_next.1 h
      exact ih (htap s u hs hu) hloop
    · exact next_eq_next.1 h ▸ hs

/-- The parts of the state that say where STORE and ADV act and on what. -/
def bufferAndCursor (s : State) : Config × Memory × Nat := (s.cfg, s.buf, s.wc)

theorem microStep_bufferAndCursor {rev : Bool} {p : Phase} {i : Instr} {s t : State}
    (hi : microStep rev p = some i) (hstore : p ≠ .store) (hadv : p ≠ .adv) (h : exec i s = .next t) :
    bufferAndCursor t = bufferAndCursor s := by
  have hown := microStep_ownership hi h
  simp only [bufferAndCursor, (microStep_frame hi h).cfg, hown.buf hstore, hown.wc hadv]

/-- An invocation writes the buffer once, at the cursor, and moves the cursor once (R60, R110). -/
theorem runInvocation_buffer_and_cursor {s t : State} (h : runInvocation s = .next t) :
    (∃ v, t.buf = memWrite s.buf s.wc v) ∧ t.wc = (s.wc + 1) % s.cfg.capacity := by
  obtain ⟨a, b, c, d, e, f, g, k, l, hlatch, hacq, hstore, hread, hseed, htaps, hshim, hmix, hemit, hadv⟩ :=
    runInvocation_eq_next.1 h
  obtain ⟨-, hread⟩ := selectReadIndex_eq_next.1 hread
  have read : bufferAndCursor d = bufferAndCursor c :=
    microStep_bufferAndCursor (p := .rdidx) rfl (by decide) (by decide) hread
  have tap : ∀ u v, execTap u = .next v → bufferAndCursor v = bufferAndCursor u := fun u v huv =>
    microStep_bufferAndCursor (rev := false) (p := .tap) rfl (by decide) (by decide) huv
  have taps : bufferAndCursor f = bufferAndCursor e :=
    tapLoop_preserves (P := fun u => bufferAndCursor u = bufferAndCursor e)
      (fun u v hu huv => (tap u v huv).trans hu) rfl htaps
  obtain rfl := execLatch_eq_next.1 hlatch
  obtain rfl := execAcq_eq_next.1 hacq
  obtain ⟨v, -, -, rfl⟩ := execStore_eq_next.1 hstore
  obtain ⟨i, -, -, rfl⟩ := execSeed_eq_next.1 hseed
  obtain ⟨_, _, -, -, -, rfl⟩ := execShim_eq_next.1 hshim
  obtain ⟨_, _, _, -, -, -, -, rfl⟩ := execMix_eq_next.1 hmix
  obtain ⟨_, -, rfl⟩ := execEmit_eq_next.1 hemit
  obtain rfl := execAdv_eq_next.1 hadv
  have loop : bufferAndCursor f = (s.cfg, memWrite s.buf s.wc v, s.wc) := taps.trans read
  simp only [bufferAndCursor, Prod.mk.injEq] at loop
  obtain ⟨hcfg, hbuf, hwc⟩ := loop
  exact ⟨⟨v, hbuf⟩, by simp only [hcfg, hwc]⟩

/-- How an instruction other than RESET treats the buffer and the cursor: one write at the cursor if it has
STORE in it, one advance of the cursor if it has ADV in it, else not at all (R60). -/
structure BufferFrame (i : Instr) (s t : State) : Prop where
  cfg : t.cfg = s.cfg
  draw : t.draw = s.draw
  buf : t.buf = s.buf ∨ (i = .store ∨ ∃ x, i = .tick x) ∧ ∃ v, t.buf = memWrite s.buf s.wc v
  wc : t.wc = s.wc ∨ (i = .adv ∨ ∃ x, i = .tick x) ∧ t.wc = (s.wc + 1) % s.cfg.capacity

theorem execTick_bufferFrame {x : Nat} {s t : State} (h : execTick x s = .next t) :
    BufferFrame (.tick x) s t := by
  have hcfg := execTick_cfg h
  have hdraw := execTick_draw h
  obtain ⟨-, ⟨-, rfl⟩ | ⟨-, hrun⟩⟩ := execTick_eq_next.1 h
  · exact ⟨hcfg, hdraw, .inl rfl, .inl rfl⟩
  · obtain ⟨hbuf, hwc⟩ := runInvocation_buffer_and_cursor hrun
    exact ⟨hcfg, hdraw, .inr ⟨.inr ⟨x, rfl⟩, hbuf⟩, .inr ⟨.inr ⟨x, rfl⟩, hwc⟩⟩

theorem microStep_bufferFrame {rev : Bool} {p : Phase} {i : Instr} {s t : State}
    (hi : microStep rev p = some i) (h : exec i s = .next t) : BufferFrame i s t := by
  have hown := microStep_ownership hi h
  refine ⟨(microStep_frame hi h).cfg, hown.draw, ?_, ?_⟩
  · by_cases hp : p = .store
    · obtain rfl : i = .store := by subst hp; exact (Option.some.inj hi).symm
      obtain ⟨v, -, -, rfl⟩ := execStore_eq_next.1 h
      exact .inr ⟨.inl rfl, v, rfl⟩
    · exact .inl (hown.buf hp)
  · by_cases hp : p = .adv
    · obtain rfl : i = .adv := by subst hp; exact (Option.some.inj hi).symm
      obtain rfl := execAdv_eq_next.1 h
      exact .inr ⟨.inl rfl, rfl⟩
    · exact .inl (hown.wc hp)

theorem exec_bufferFrame {i : Instr} {s t : State} (h : exec i s = .next t) (hi : i ≠ .reset) :
    BufferFrame i s t := by
  obtain ⟨x, rfl⟩ | rfl | ⟨reg, v, rfl⟩ | ⟨rev, p, hp⟩ := completing_cases h
  · exact execTick_bufferFrame h
  · exact absurd rfl hi
  · obtain rfl := exec_writeInstr_eq_setParam h
    exact ⟨by simp, by simp, by simp, by simp⟩
  · exact microStep_bufferFrame hp h

/-- The entries away from the cursor read as before. -/
theorem BufferFrame.entry_eq {i : Instr} {s t : State} (h : BufferFrame i s t) {j : Nat} (hj : j ≠ s.wc) :
    entry t j = entry s j := by
  obtain hbuf | ⟨-, v, hbuf⟩ := h.buf
  · exact entry_congr s t hbuf h.draw h.cfg j
  · rw [entry_write s t hbuf h.draw h.cfg, if_neg hj]

/-- Settles O47: the clauses are the frame of `exec_bufferFrame`. -/
theorem bufferAndCursorOwnership : Obligations.BufferAndCursorOwnership := by
  intro i s t h hi
  have hframe := exec_bufferFrame h hi
  exact ⟨fun hne => (hframe.buf.resolve_left hne).1, fun j hj => hframe.entry_eq hj,
    hframe.wc.resolve_left, hframe.draw⟩

/-! The tick beside the reset values (R32, R41). -/

/-- Settles O30: the start of an invocation touches the latches, the working registers, the input sample and
PHASE only. -/
theorem steppedTickOnlyStarts : Obligations.SteppedTickOnlyStarts := by
  intro s x hidle hstepped
  exact ⟨startInvocation x s, execTick_eq_next.2 ⟨hidle, .inl ⟨hstepped, rfl⟩⟩, rfl, rfl,
    ⟨rfl, rfl, rfl, rfl, rfl, rfl, rfl, rfl, rfl, rfl, rfl⟩⟩

/-- Fully dry, the output is the input (R161). -/
theorem tickOutput_of_dry {s : State} {x : Nat} (hwet : s.pWet = 0) (hx : x ≤ s.cfg.fs) :
    tickOutput s x = x := by
  have hmix : (x * (s.cfg.one - 0) + shimmered s.cfg (delayedSample s x) s.pShim * 0) / s.cfg.one = x := by
    rw [Nat.sub_zero, Nat.mul_zero, Nat.add_zero, Nat.mul_div_cancel _ (one_pos _)]
  rw [tickOutput, hwet, hmix, Nat.min_eq_left hx]

theorem afterTick_emitted_of_dry {s : State} {x : Nat} (hwet : s.pWet = 0) (hx : x ≤ s.cfg.fs) :
    (afterTick s x).emitted = s.emitted ++ [(x, x)] := by
  rw [afterTick_emitted, tickOutput_of_dry hwet hx]

/-- Settles O32: the reset values are fully dry, and both readings end at `afterTick`. -/
theorem resetParametersPassThrough : Obligations.ResetParametersPassThrough := by
  refine ⟨fun c => rfl, fun s => ⟨resetState s, rfl, rfl⟩, fun s x h hidle hx hparams => ?_⟩
  have hwet : s.pWet = 0 := congrArg Snapshot.wet hparams
  constructor
  · intro hatomic
    exact ⟨afterTick s x, execTick_eq_next.2 ⟨hidle, .inr ⟨hatomic, runInvocation_start x h⟩⟩, rfl,
      afterTick_emitted_of_dry hwet hx⟩
  · intro hstepped hagenda
    obtain ⟨hstart, hrun⟩ := steppedInvocationEqualsAtomic s x h hidle hstepped hagenda hx
    exact ⟨startInvocation x s, _, afterTick s x, hstart, hrun, rfl, afterTick_emitted_of_dry hwet hx⟩

/-! The invariant, kept by every step (R20, R34, R247). Each micro-step's lemma gives the registers that are
new at the next phase, and those that lose a value; the others are as they were. -/

/-- Between invocations a legal state needs nothing more: no latch and no working register holds a value. -/
theorem clearWork_inv {s : State} (h : s.Legal) (hidle : s.phase = .idle) : (clearWork s).Inv where
  legal := { h with }
  presence := by constructor <;> simp [hidle, Phase.code]
  ranges := by constructor <;> simp

/-- The reset values are legal at every legal configuration (R42). -/
theorem legal_of_resetValues {s : State} (hcfg : s.cfg.Legal) (hbuf : s.buf = []) (hwc : s.wc = 0)
    (hparams : readParams s = ⟨1, false, 0, 0, 0⟩) : s.Legal := by
  have hcap := hcfg.two_le_capacity
  simp only [readParams, Snapshot.mk.injEq] at hparams
  obtain ⟨hdelay, -, hrep, hwet, hshim⟩ := hparams
  refine ⟨hcfg, by rw [hbuf]; rfl, by simp [hbuf], ?_, ?_, ?_, ?_, ?_, ?_⟩ <;> omega

/-- Settles O55: the power-on state holds the reset values and no value of an invocation. -/
theorem resetMeetsInvariant : Obligations.ResetMeetsInvariant := fun c hc =>
  clearWork_inv (s := State.resetWith c) (legal_of_resetValues hc rfl rfl rfl) rfl

theorem resetState_inv {s : State} (h : s.cfg.Legal) : (resetState s).Inv :=
  clearWork_inv (s := resetState s) (legal_of_resetValues h rfl rfl rfl) rfl

theorem withAgenda_inv {s : State} (hs : s.Inv) (r : List Turn) : (withAgenda r s).Inv :=
  ⟨{ hs.legal with }, { hs.presence with }, { hs.ranges with }⟩

/-- A legal value keeps the state legal (R83). -/
theorem setParam_legal {reg : ParamReg} {v : Nat} {s : State} (h : s.Legal)
    (hv : paramLegal s.cfg reg v = true) : (setParam reg v s).Legal := by
  rw [paramLegal_iff] at hv
  cases reg
  case delay =>
    obtain ⟨hpos, hle⟩ := hv
    exact { h with delay_pos := hpos, delay_lt := Nat.lt_of_le_pred (Nat.zero_lt_of_lt h.wc) hle }
  case rev => exact { h with }
  case rep => exact { h with rep := hv }
  case wet => exact { h with wet := hv }
  case shim => exact { h with shim := hv }

theorem setParam_inv {reg : ParamReg} {v : Nat} {s : State} (hs : s.Inv)
    (hv : paramLegal s.cfg reg v = true) : (setParam reg v s).Inv where
  legal := setParam_legal hs.legal hv
  presence := by cases reg <;> exact { hs.presence with }
  ranges := by cases reg <;> exact { hs.ranges with }

/-- STORE's write of a sample keeps the state legal (R51, R113). -/
theorem afterStore_legal {s : State} {x : Nat} (h : s.Legal) (hx : x ≤ s.cfg.fs) :
    (afterStore s x).Legal :=
  { h with wf := memWrite_wf _ _ h.wf, entries := memWrite_entries h.wc hx h.entries }

theorem cursor_next_lt {s : State} (h : s.Legal) : (s.wc + 1) % s.cfg.capacity < s.cfg.capacity :=
  Nat.mod_lt _ (Nat.zero_lt_of_lt h.wc)

/-- An invocation of the atomic reading ends in the invariant. -/
theorem afterTick_inv {s : State} {x : Nat} (h : s.Legal) (hx : x ≤ s.cfg.fs) : (afterTick s x).Inv :=
  clearWork_inv (s := afterTick s x) { afterStore_legal h hx with wc := cursor_next_lt h } rfl

theorem startInvocation_inv {s : State} {x : Nat} (h : s.Legal) (hx : x ≤ s.cfg.fs) :
    (startInvocation x s).Inv where
  legal := { h with }
  presence := by constructor <;> simp [Phase.code]
  ranges := by constructor <;> simp [hx]

theorem execTick_inv {s t : State} {x : Nat} (hs : s.Inv) (hx : x ≤ s.cfg.fs)
    (h : execTick x s = .next t) : t.Inv := by
  obtain ⟨-, ⟨-, rfl⟩ | ⟨-, hrun⟩⟩ := execTick_eq_next.1 h
  · exact startInvocation_inv hs.legal hx
  · obtain rfl := next_eq_next.1 ((runInvocation_start x hs.legal).symm.trans hrun)
    exact afterTick_inv hs.legal hx

/-- Before the micro-step that writes it a register holds no value (R34); at a phase written out, the
presence of a register computes to `false` there. -/
theorem absent {α : Type} {v : Option α} (h : v.isSome = false) : v = none :=
  Option.not_isSome_iff_eq_none.1 (Bool.eq_false_iff.1 h)

/-- The same registers hold a value, with the phase written out. -/
theorem presence_at {s : State} {p : Phase} (h : s.Presence) (hp : s.phase = p) :
    State.Presence { s with phase := p } := by
  subst hp; exact h

section

variable {s t : State} (hs : s.Inv)
include hs

theorem execLatch_inv (hp : s.phase = .latch) (h : execLatch s = .next t) : t.Inv := by
  obtain rfl := execLatch_eq_next.1 h
  have hpres := presence_at hs.presence hp
  have hr : s.r = none := absent hpres.r
  refine ⟨{ hs.legal with }, { hpres with snap := rfl, ei := fun h => Nat.lt_succ_of_lt (hpres.ei h) },
    { hs.ranges with snap := ?_, r := by simp [hr] }⟩
  rintro p ⟨⟩
  exact ⟨hs.legal.delay_pos, hs.legal.delay_lt, hs.legal.rep, hs.legal.wet, hs.legal.shim⟩

theorem execAcq_inv (hp : s.phase = .acq) (h : execAcq s = .next t) : t.Inv := by
  obtain rfl := execAcq_eq_next.1 h
  have hpres := presence_at hs.presence hp
  have hmixw : s.mixw = none := absent hpres.mixw
  obtain ⟨v, hv⟩ : ∃ v, s.sampleIn = some v := Option.isSome_iff_exists.1 hpres.sampleIn
  exact ⟨{ hs.legal with }, { hpres with x := rfl, ei := fun h => Nat.lt_succ_of_lt (hpres.ei h) },
    { hs.ranges with x := by simp [sampleInput_of_some hv, hv], mixw := by simp [hmixw] }⟩

theorem execStore_inv (hp : s.phase = .store) (h : execStore s = .next t) : t.Inv := by
  obtain ⟨v, hv, -, rfl⟩ := execStore_eq_next.1 h
  have hpres := presence_at hs.presence hp
  have hle : v ≤ s.cfg.fs := hs.ranges.sampleIn v (hs.ranges.x v hv)
  exact ⟨{ afterStore_legal hs.legal hle with }, { hpres with ei := fun h => Nat.lt_succ_of_lt (hpres.ei h) },
    { hs.ranges with }⟩

theorem setReadIndex_inv {f : Nat → Nat → Nat → Nat}
    (hf : ∀ wc d, f s.cfg.capacity wc d < s.cfg.capacity) (hp : s.phase = .rdidx)
    (h : setReadIndex f s = .next t) : t.Inv := by
  obtain ⟨p, -, -, rfl⟩ := setReadIndex_eq_next.1 h
  have hpres := presence_at hs.presence hp
  exact ⟨{ hs.legal with }, { hpres with ri := rfl, ei := fun h => Nat.lt_succ_of_lt (hpres.ei h) },
    { hs.ranges with ri := by rintro i ⟨⟩; exact hf _ _ }⟩

theorem execSeed_inv (hp : s.phase = .seed) (h : execSeed s = .next t) : t.Inv := by
  obtain ⟨i, -, -, rfl⟩ := execSeed_eq_next.1 h
  have hpres := presence_at hs.presence hp
  have hdelta : s.delta = none := absent hpres.delta
  have hsh : s.sh = none := absent hpres.sh
  have hbase : entry s i ≤ s.cfg.fs := entry_le hs.legal.entries i
  exact ⟨{ hs.legal with }, { hpres with acc := rfl, r := rfl, ei := fun h => Nat.lt_succ_of_lt (hpres.ei h) },
    { hs.ranges with
      r := by rintro r ⟨⟩; exact ⟨Nat.le_refl 1, fun p _ => Nat.le_add_left 1 _⟩
      acc := by rintro a ⟨⟩ r ⟨⟩; exact Nat.le_add_right_of_le hbase
      delta := by simp [hdelta]
      sh := by simp [hsh] }⟩

/-- One tap adds at most `echoScale FS` (R142 item b). -/
theorem tap_acc_le {a r : Nat} (ha : s.acc = some a) (hr : s.r = some r) (i : Nat) :
    a + echoScale s.cfg (entry s i) ≤ s.cfg.fs + (r + 1 - 1) * echoScale s.cfg s.cfg.fs := by
  obtain ⟨hpos, -⟩ := hs.ranges.r r hr
  have hsum := hs.ranges.acc a ha r hr
  have htap : echoScale s.cfg (entry s i) ≤ echoScale s.cfg s.cfg.fs :=
    hs.legal.cfg.echo_mono _ _ (entry_le hs.legal.entries i) (Nat.le_refl _)
  obtain ⟨k, rfl⟩ : ∃ k, r = k + 1 := ⟨r - 1, by omega⟩
  simp only [Nat.add_sub_cancel] at hsum ⊢
  rw [Nat.add_mul, Nat.one_mul]
  omega

theorem execTap_inv (hp : s.phase = .tap) (h : execTap s = .next t) : t.Inv := by
  have hpres := presence_at hs.presence hp
  obtain ⟨p, r, hsnap, hr, -, ⟨-, rfl⟩ | ⟨hdue, i, a, -, ha, hlt, rfl⟩⟩ := execTap_eq_next.1 h
  · exact ⟨{ hs.legal with }, { hpres with ei := fun h => Nat.lt_succ_of_lt (hpres.ei h) },
      { hs.ranges with }⟩
  · have hdelta : s.delta = none := absent hpres.delta
    have hsh : s.sh = none := absent hpres.sh
    refine ⟨{ hs.legal with }, { hpres with ei := fun _ => Nat.lt_succ_self 5, acc := rfl, r := rfl },
      { hs.ranges with
        ei := by rintro j ⟨⟩; exact hlt
        r := ?count
        acc := by rintro b ⟨⟩ n ⟨⟩; exact tap_acc_le hs ha hr _
        delta := by simp [hdelta]
        sh := by simp [hsh] }⟩
    case count =>
      rintro n ⟨⟩
      refine ⟨Nat.le_add_left 1 r, fun q hq => ?_⟩
      obtain rfl : p = q := Option.some.inj (hsnap.symm.trans hq)
      exact Nat.succ_le_succ hdue

theorem execShim_inv (hp : s.phase = .shim) (h : execShim s = .next t) : t.Inv := by
  obtain ⟨a, p, ha, -, hk, rfl⟩ := execShim_eq_next.1 h
  have hpres := presence_at hs.presence hp
  have hmixw : s.mixw = none := absent hpres.mixw
  have hdelta : shimDelta s.cfg a p.shim ≤ a := shimDelta_le hk
  exact ⟨{ hs.legal with },
    { hpres with low := rfl, sgn := rfl, delta := rfl, sh := rfl, ei := fun h => Nat.lt_succ_of_lt (hpres.ei h) },
    { hs.ranges with
      low := by rintro v ⟨⟩; exact Nat.mod_lt _ (Nat.two_pow_pos _)
      delta := by rintro d ⟨⟩ b hb; rwa [← Option.some.inj (ha.symm.trans hb)]
      sh := by rintro d ⟨⟩ b hb; rw [← Option.some.inj (ha.symm.trans hb)]; exact shimApply_le hdelta
      mixw := by simp [hmixw] }⟩

theorem execMix_inv (hp : s.phase = .mix) (h : execMix s = .next t) : t.Inv := by
  obtain ⟨v, w, p, hv, hw, -, hk, rfl⟩ := execMix_eq_next.1 h
  have hpres := presence_at hs.presence hp
  refine ⟨{ hs.legal with }, { hpres with mixw := rfl, ei := fun h => Nat.lt_succ_of_lt (hpres.ei h) },
    { hs.ranges with mixw := ?_ }⟩
  rintro m ⟨⟩ v' w' hv' hw'
  obtain rfl : v = v' := Option.some.inj (hv.symm.trans hv')
  obtain rfl : w = w' := Option.some.inj (hw.symm.trans hw')
  exact crossfade_between hk

theorem execEmit_inv (hp : s.phase = .emit) (h : execEmit s = .next t) : t.Inv := by
  obtain ⟨m, -, rfl⟩ := execEmit_eq_next.1 h
  have hpres := presence_at hs.presence hp
  exact ⟨{ hs.legal with }, { hpres with y := rfl, ei := fun h => Nat.lt_succ_of_lt (hpres.ei h) },
    { hs.ranges with y := by rintro v ⟨⟩; exact outputOf_le _ _ }⟩

theorem execAdv_inv (h : execAdv s = .next t) : t.Inv := by
  obtain rfl := execAdv_eq_next.1 h
  exact clearWork_inv (s := { s with wc := (s.wc + 1) % s.cfg.capacity, phase := .idle })
    { hs.legal with wc := cursor_next_lt hs.legal } rfl

/-- The micro-step of the state's own phase keeps the invariant. -/
theorem microStep_inv {rev : Bool} {i : Instr} (hi : microStep rev s.phase = some i)
    (h : exec i s = .next t) : t.Inv := by
  have hpos : 0 < s.cfg.capacity := Nat.zero_lt_of_lt hs.legal.wc
  cases hp : s.phase <;> rw [hp] at hi <;>
    simp only [microStep, Option.some.injEq, reduceCtorEq] at hi <;> subst hi
  case latch => exact execLatch_inv hs hp h
  case acq => exact execAcq_inv hs hp h
  case store => exact execStore_inv hs hp h
  case rdidx =>
    cases rev
    · exact setReadIndex_inv hs (fun wc d => forwardIndex_lt wc d hpos) hp h
    · refine setReadIndex_inv hs (fun wc d => ?_) hp h
      rw [reverseIndex_eq_forwardIndex]
      exact forwardIndex_lt wc d hpos
  case seed => exact execSeed_inv hs hp h
  case tap => exact execTap_inv hs hp h
  case shim => exact execShim_inv hs hp h
  case mix => exact execMix_inv hs hp h
  case emit => exact execEmit_inv hs hp h
  case adv => exact execAdv_inv hs h

end

/-- Settles O56: each of the five things a step can have done keeps the invariant. -/
theorem stepKeepsInvariant : Obligations.StepKeepsInvariant := by
  intro s t hs h
  obtain ⟨r, rfl | ⟨rev, i, hi, hexec⟩ | rfl | ⟨reg, v, hv, rfl⟩ | ⟨x, hx, htick⟩⟩ := step_cases h
  · exact withAgenda_inv hs r
  · exact microStep_inv (withAgenda_inv hs r) hi hexec
  · exact resetState_inv hs.legal.cfg
  · exact setParam_inv (withAgenda_inv hs r) hv
  · exact execTick_inv (withAgenda_inv hs r) hx htick

end Sys2Proof.Machine

/-! Runs of ticks in the atomic reading, in closed form, and the delay line they make of the buffer
(`spec/20_memory.md` R57, R58, `spec/40_cycle_and_indexing.md` R113, R118). -/

namespace Sys2Proof.Machine

open Sys2Proof

/-- The state after invocations with the inputs `xs`, one after the other (R96, R110). -/
def afterTicks (s : State) (xs : List Nat) : State := xs.foldl afterTick s

@[simp] theorem afterTicks_nil (s : State) : afterTicks s [] = s := rfl

@[simp] theorem afterTicks_cons (s : State) (x : Nat) (xs : List Nat) :
    afterTicks s (x :: xs) = afterTicks (afterTick s x) xs := rfl

@[simp] theorem afterTicks_append_singleton (s : State) (xs : List Nat) (x : Nat) :
    afterTicks s (xs ++ [x]) = afterTick (afterTicks s xs) x := List.foldl_concat afterTick s x xs

theorem afterTick_ready {s : State} {x : Nat} (h : s.Ready) (hx : x ≤ s.cfg.fs) : (afterTick s x).Ready :=
  ⟨(afterTick_inv h.legal hx).legal, rfl, h.atomic⟩

/-- A tick of a ready state is one invocation in closed form (R9, R110). -/
theorem execTick_of_ready {s : State} (x : Nat) (h : s.Ready) : execTick x s = .next (afterTick s x) :=
  execTick_eq_next.2 ⟨h.idle, .inr ⟨h.atomic, runInvocation_start x h.legal⟩⟩

/-- A run of ticks from a ready state completes, in a ready state, and is given by `afterTicks`. -/
theorem runTicks_of_ready {xs : List Nat} {s : State} (h : s.Ready) (hxs : ∀ x ∈ xs, x ≤ s.cfg.fs) :
    runTicks xs s = .next (afterTicks s xs) ∧ (afterTicks s xs).Ready := by
  induction xs generalizing s with
  | nil => exact ⟨rfl, h⟩
  | cons x xs ih =>
    obtain ⟨hx, hxs⟩ := List.forall_mem_cons.1 hxs
    rw [runTicks, execTick_of_ready x h, andThen_next]
    exact ih (afterTick_ready h hx) hxs

/-! What a run of ticks leaves unchanged, and where it puts the cursor. -/

/-- What every invocation keeps, a run of them keeps. -/
theorem afterTicks_keeps {α : Type} {f : State → α} (hf : ∀ s x, f (afterTick s x) = f s) (s : State)
    (xs : List Nat) : f (afterTicks s xs) = f s := by
  induction xs generalizing s with
  | nil => rfl
  | cons x xs ih => exact (ih (afterTick s x)).trans (hf s x)

@[simp] theorem afterTicks_cfg (s : State) (xs : List Nat) : (afterTicks s xs).cfg = s.cfg :=
  afterTicks_keeps afterTick_cfg s xs

@[simp] theorem afterTicks_pDelay (s : State) (xs : List Nat) : (afterTicks s xs).pDelay = s.pDelay :=
  afterTicks_keeps afterTick_pDelay s xs

@[simp] theorem afterTicks_pRep (s : State) (xs : List Nat) : (afterTicks s xs).pRep = s.pRep :=
  afterTicks_keeps afterTick_pRep s xs

@[simp] theorem afterTicks_pWet (s : State) (xs : List Nat) : (afterTicks s xs).pWet = s.pWet :=
  afterTicks_keeps afterTick_pWet s xs

@[simp] theorem afterTicks_pShim (s : State) (xs : List Nat) : (afterTicks s xs).pShim = s.pShim :=
  afterTicks_keeps afterTick_pShim s xs

/-- The cursor counts the invocations modulo `N` (R118). -/
theorem afterTicks_wc {s : State} (hwc : s.wc < s.cfg.capacity) (xs : List Nat) :
    (afterTicks s xs).wc = (s.wc + xs.length) % s.cfg.capacity := by
  induction xs using List.reverseRecOn with
  | nil => exact (Nat.mod_eq_of_lt hwc).symm
  | append_singleton xs x ih =>
    rw [afterTicks_append_singleton, afterTick_wc, ih, afterTicks_cfg, Nat.mod_add_mod, List.length_append,
      List.length_singleton, Nat.add_assoc]

/-! The buffer as the history of the inputs (R58, R113). -/

/-- Less than a whole turn apart, the cursor does not stand at the same entry. -/
theorem cursor_ne {n w j k : Nat} (hjk : j < k) (hk : k < j + n) : (w + j) % n ≠ (w + k) % n := by
  intro h
  have hdvd : n ∣ w + k - (w + j) := (Nat.modEq_iff_dvd' (by omega)).1 h
  have := Nat.le_of_dvd (by omega) hdvd
  omega

/-- An invocation writes the entry at the cursor and no other (R60, R113). -/
theorem entry_afterTick (s : State) (x j : Nat) :
    entry (afterTick s x) j = if j = s.wc then x else entry s j :=
  entry_write s (afterTick s x) rfl rfl rfl j

/-- What SEED and TAP of an invocation read is the buffer as the invocation leaves it (R60). -/
theorem entry_afterStore (s : State) (x j : Nat) : entry (afterStore s x) j = entry (afterTick s x) j :=
  entry_congr (afterTick s x) (afterStore s x) rfl rfl rfl j

/-- An input among the last `N` stands where the cursor was when it came. -/
theorem entry_afterTicks_of_recent {s : State} (hwc : s.wc < s.cfg.capacity) {xs : List Nat} {j : Nat}
    (hj : j < xs.length) (hrecent : xs.length ≤ j + s.cfg.capacity) :
    xs[j]? = some (entry (afterTicks s xs) ((s.wc + j) % s.cfg.capacity)) := by
  induction xs using List.reverseRecOn with
  | nil => exact absurd hj (Nat.not_lt_zero j)
  | append_singleton xs x ih =>
    simp only [List.length_append, List.length_singleton] at hj hrecent
    rw [afterTicks_append_singleton, entry_afterTick, afterTicks_wc hwc]
    obtain rfl | hlt : j = xs.length ∨ j < xs.length := by omega
    · rw [if_pos rfl, List.getElem?_concat_length]
    · rw [if_neg (cursor_ne hlt (by omega)), List.getElem?_append_left hlt]
      exact ih hlt (by omega)

/-- An entry the cursor did not pass is unchanged. -/
theorem entry_afterTicks_of_not_passed {s : State} (hwc : s.wc < s.cfg.capacity) {xs : List Nat} {i : Nat}
    (hi : ∀ j, j < xs.length → (s.wc + j) % s.cfg.capacity ≠ i) :
    entry (afterTicks s xs) i = entry s i := by
  induction xs using List.reverseRecOn with
  | nil => rfl
  | append_singleton xs x ih =>
    simp only [List.length_append, List.length_singleton] at hi
    have hlast : i ≠ (s.wc + xs.length) % s.cfg.capacity := (hi xs.length (Nat.lt_succ_self _)).symm
    rw [afterTicks_append_singleton, entry_afterTick, afterTicks_wc hwc, if_neg hlast]
    exact ih fun j hj => hi j (Nat.lt_succ_of_lt hj)

/-- Settles O40: the run ends at `afterTicks`, whose buffer the two lemmas above describe. -/
theorem bufferHoldsInputHistory : Obligations.BufferHoldsInputHistory := by
  intro xs s h hxs
  have hwc := h.legal.wc
  exact ⟨afterTicks s xs, (runTicks_of_ready h hxs).1, fun j => entry_afterTicks_of_recent hwc,
    fun i => entry_afterTicks_of_not_passed hwc⟩

/-! The outputs of a run, and the run as a pure delay (R58, R164). -/

@[simp] theorem outputs_afterTick (s : State) (x : Nat) :
    outputs (afterTick s x) = outputs s ++ [tickOutput s x] := List.map_append

theorem outputs_afterTicks_length (s : State) (xs : List Nat) :
    (outputs (afterTicks s xs)).length = s.emitted.length + xs.length := by
  induction xs using List.reverseRecOn with
  | nil => exact List.length_map _
  | append_singleton xs x ih =>
    rw [afterTicks_append_singleton, outputs_afterTick, List.length_append, ih, List.length_append,
      Nat.add_assoc]
    rfl

/-- Output `k` of a run is the invocation's output in the state the first `k` inputs lead to. -/
theorem outputs_afterTicks_getElem? (s : State) {xs : List Nat} {k : Nat} (hk : k < xs.length) :
    (outputs (afterTicks s xs))[s.emitted.length + k]? =
      some (tickOutput (afterTicks s (xs.take k)) xs[k]) := by
  induction xs using List.reverseRecOn with
  | nil => exact absurd hk (Nat.not_lt_zero k)
  | append_singleton xs x ih =>
    have hlen := outputs_afterTicks_length s xs
    rw [afterTicks_append_singleton, outputs_afterTick]
    obtain rfl | hlt : k = xs.length ∨ k < xs.length := by
      rw [List.length_append, List.length_singleton] at hk
      omega
    · rw [← hlen, List.getElem?_concat_length, List.take_left, List.getElem_concat_length rfl]
    · rw [List.getElem?_append_left (by omega), ih hlt, List.take_append_of_le_length hlt.le,
        List.getElem_append_left hlt]

/-- The read index is the place of the cursor `d` invocations ago (R57, R58). -/
theorem forwardIndex_cursor {n w k d : Nat} (hd : d < n) (hk : d ≤ k) :
    forwardIndex n ((w + k) % n) d = (w + (k - d)) % n := by
  rw [forwardIndex, Nat.add_sub_assoc hd.le, Nat.mod_add_mod,
    show w + k + (n - d) = w + (k - d) + n by omega, Nat.add_mod_right]

/-- The shimmer stage does nothing at depth 0 (R151). -/
theorem shimmered_zero (c : Config) (a : Nat) : shimmered c a 0 = a := by simp [shimmered]

/-- With no taps the delayed sample is the entry at the read index (R142 item a). -/
theorem delayedSample_of_no_taps {s : State} (hrep : s.pRep = 0) (x : Nat) :
    delayedSample s x = entry (afterTick s x) (forwardIndex s.cfg.capacity s.wc s.pDelay) := by
  rw [← entry_afterStore, delayedSample, hrep]
  rfl

/-- Fully wet the output is the clamped shimmer sample (R161). -/
theorem tickOutput_of_wet {s : State} (hwet : s.pWet = s.cfg.one) (x : Nat) :
    tickOutput s x = min (shimmered s.cfg (delayedSample s x) s.pShim) s.cfg.fs := by
  rw [tickOutput, hwet, Nat.sub_self, Nat.mul_zero, Nat.zero_add, Nat.mul_div_cancel _ (one_pos _)]

/-- With no taps, no shimmer and fully wet, the output is the entry at the read index (R164). -/
theorem tickOutput_of_pureDelay {s : State} {x : Nat} (h : s.Legal) (hx : x ≤ s.cfg.fs)
    (hrep : s.pRep = 0) (hshim : s.pShim = 0) (hwet : s.pWet = s.cfg.one) :
    tickOutput s x = entry (afterTick s x) (forwardIndex s.cfg.capacity s.wc s.pDelay) := by
  have hle : entry (afterTick s x) (forwardIndex s.cfg.capacity s.wc s.pDelay) ≤ s.cfg.fs :=
    entry_le (afterTick_inv h hx).legal.entries _
  rw [tickOutput_of_wet hwet, hshim, shimmered_zero, delayedSample_of_no_taps hrep, Nat.min_eq_left hle]

/-- Settles O41: output `k` is the entry where the cursor was `P_DELAY` invocations before input `k`, and the
history of the first `k + 1` inputs says that input `k - P_DELAY` stands there. -/
theorem pureDelayLine : Obligations.PureDelayLine := by
  intro xs s h hxs hrep hshim hwet
  refine ⟨afterTicks s xs, (runTicks_of_ready h hxs).1, fun k hdelay hk => ?_⟩
  have hwc := h.legal.wc
  have hd := h.legal.delay_lt
  have hbefore : (afterTicks s (xs.take k)).Ready :=
    (runTicks_of_ready h fun x hx => hxs x (List.mem_of_mem_take hx)).2
  have hcursor : (afterTicks s (xs.take k)).wc = (s.wc + k) % s.cfg.capacity := by
    rw [afterTicks_wc hwc, List.length_take_of_le hk.le]
  have hin : xs[k] ≤ (afterTicks s (xs.take k)).cfg.fs := by
    rw [afterTicks_cfg]
    exact hxs _ (List.getElem_mem hk)
  have hlen : (xs.take (k + 1)).length = k + 1 := List.length_take_of_le hk
  calc (outputs (afterTicks s xs))[s.emitted.length + k]?
      = some (tickOutput (afterTicks s (xs.take k)) xs[k]) := outputs_afterTicks_getElem? s hk
    _ = some (entry (afterTicks s (xs.take (k + 1))) ((s.wc + (k - s.pDelay)) % s.cfg.capacity)) := by
        rw [tickOutput_of_pureDelay hbefore.legal hin (by simpa) (by simpa) (by simpa), hcursor,
          afterTicks_cfg, afterTicks_pDelay, forwardIndex_cursor hd hdelay,
          ← afterTicks_append_singleton, List.take_append_getElem]
    _ = (xs.take (k + 1))[k - s.pDelay]? := (entry_afterTicks_of_recent hwc (by omega) (by omega)).symm
    _ = xs[k - s.pDelay]? := List.getElem?_take_of_lt (by omega)

/-! Which read indices coincide (R57). -/

/-- A tap's index, with the two reductions made one. -/
theorem echoIndex_forwardIndex (n wc r d : Nat) :
    echoIndex n (forwardIndex n wc d) r d = (wc + n - d + r * d) % n := Nat.mod_add_mod _ _ _

/-- Tap `r` reads `r - 1` delays ahead of the cursor. -/
theorem echoIndex_from_cursor {n wc r d : Nat} (hd : d < n) (hr : 1 ≤ r) :
    echoIndex n (forwardIndex n wc d) r d = (wc + (r - 1) * d) % n := by
  obtain ⟨q, rfl⟩ : ∃ q, r = q + 1 := ⟨r - 1, by omega⟩
  have hsum : wc + n - d + (q + 1) * d = wc + q * d + n := by rw [Nat.succ_mul]; omega
  rw [echoIndex_forwardIndex, hsum, Nat.add_mod_right, Nat.add_sub_cancel]

/-- From one base, two offsets lead to one entry exactly when `N` divides their difference. -/
theorem add_mod_eq_add_mod_iff {n b i j : Nat} (h : i ≤ j) : (b + j) % n = (b + i) % n ↔ n ∣ j - i := by
  rw [eq_comm, ← Nat.add_sub_add_left b j i]
  exact Nat.modEq_iff_dvd' (Nat.add_le_add_left h b)

theorem add_mod_eq_mod_iff {n b j : Nat} : (b + j) % n = b % n ↔ n ∣ j :=
  add_mod_eq_add_mod_iff (Nat.zero_le j)

/-- The read index is the cursor without a delay only. -/
theorem forwardIndex_eq_cursor_iff {n wc d : Nat} (hwc : wc < n) (hd : d < n) :
    forwardIndex n wc d = wc ↔ d = 0 := by
  have hturn : (wc + n - d + d) % n = wc := by
    rw [Nat.sub_add_cancel (by omega), Nat.add_mod_right, Nat.mod_eq_of_lt hwc]
  calc forwardIndex n wc d = wc ↔ (wc + n - d + d) % n = (wc + n - d) % n := by
        rw [hturn, forwardIndex, eq_comm]
    _ ↔ n ∣ d := add_mod_eq_mod_iff
    _ ↔ d = 0 := ⟨fun h => Nat.eq_zero_of_dvd_of_lt h hd, fun h => h ▸ Nat.dvd_zero n⟩

/-- Settles O37: every index is a base plus an offset modulo `N`. -/
theorem readIndexCoincidences : Obligations.ReadIndexCoincidences := by
  intro n wc d hwc hd
  refine ⟨forwardIndex_eq_cursor_iff hwc hd, fun r => echoIndex_from_cursor hd, ?tapOne, fun r hr => ?cursor,
    fun r _ => ?base, fun r₁ r₂ _ hlt => ?taps⟩
  case tapOne =>
    rw [echoIndex_from_cursor hd (Nat.le_refl 1), Nat.sub_self, Nat.zero_mul, Nat.add_zero,
      Nat.mod_eq_of_lt hwc]
  case cursor =>
    rw [echoIndex_from_cursor hd (by omega), ← add_mod_eq_mod_iff (b := wc), Nat.mod_eq_of_lt hwc]
  case base => rw [echoIndex_forwardIndex]; exact add_mod_eq_mod_iff
  case taps =>
    rw [echoIndex_forwardIndex, echoIndex_forwardIndex, eq_comm, Nat.sub_mul]
    exact add_mod_eq_add_mod_iff (Nat.mul_le_mul_right d hlt.le)

end Sys2Proof.Machine

/-! The encoding: the fields of a command word, what a sequencer word selects, and the words a port carries
(R81 to R92, R97). -/

namespace Sys2Proof.Machine

open Sys2Proof

/-- Settles O1: the round trips of the twenty constructors together. -/
theorem decodeInvertsEncode : Obligations.DecodeInvertsEncode
  | .tick x => Laws.RoundTrip.tick x
  | .wrDelay v => Laws.RoundTrip.wrDelay v
  | .wrRev v => Laws.RoundTrip.wrRev v
  | .wrRep v => Laws.RoundTrip.wrRep v
  | .wrWet v => Laws.RoundTrip.wrWet v
  | .wrShim v => Laws.RoundTrip.wrShim v
  | .reservedSel5 data => Laws.RoundTrip.reservedSel5 data
  | .reservedSel67 low data => Laws.RoundTrip.reservedSel67 low data
  | .reset => Laws.RoundTrip.reset
  | .latch => Laws.RoundTrip.latch
  | .acq => Laws.RoundTrip.acq
  | .store => Laws.RoundTrip.store
  | .rdidxF => Laws.RoundTrip.rdidxF
  | .rdidxR => Laws.RoundTrip.rdidxR
  | .seed => Laws.RoundTrip.seed
  | .tap => Laws.RoundTrip.tap
  | .shim => Laws.RoundTrip.shim
  | .mix => Laws.RoundTrip.mix
  | .emit => Laws.RoundTrip.emit
  | .adv => Laws.RoundTrip.adv

/-! The two fields of a command word (R82). -/

theorem commandSel_lt (c : Config) (w : Nat) : commandSel c w < 8 := Nat.mod_lt _ (by decide)

theorem commandData_lt (c : Config) (w : Nat) : commandData c w < 2 ^ c.dataW :=
  Nat.mod_lt _ (Nat.two_pow_pos _)

/-- A word of the control port's width is its two fields and nothing more. -/
theorem commandWord_fields {c : Config} {w : Nat} (h : w < 2 ^ c.cmdW) :
    commandWord c (commandSel c w) (commandData c w) = .command w := by
  have hsel : commandSel c w = w / 2 ^ c.dataW :=
    Nat.mod_eq_of_lt (Nat.div_lt_of_lt_mul (by rwa [Config.cmdW, Nat.add_comm, Nat.pow_add] at h))
  rw [commandWord, hsel, commandData, Nat.div_add_mod']

theorem encode_commandInstr (c : Config) {sel : Nat} (data : Nat) (hs : sel < 8) :
    encode c (commandInstr sel data) = commandWord c sel data := by
  interval_cases sel <;> rfl

theorem wellFormed_commandInstr (c : Config) (sel data : Nat) :
    WellFormed c (commandInstr sel data) = decide (data < 2 ^ c.dataW) := by
  unfold commandInstr
  split <;> rfl

/-- Settles O2: the fields read back, and then `sel` is one of eight numbers. -/
theorem commandWordsAllDecode : Obligations.CommandWordsAllDecode := by
  intro c sel data hs hd
  refine (Laws.RoundTrip.decode_commandWord c hs hd).trans (congrArg Except.ok ?_)
  interval_cases sel <;> rfl

/-! The sequencer words (R85, R88, R92). -/

theorem phaseOfCode_eq_none {n : Nat} (h : 11 ≤ n) : phaseOfCode n = none := by
  obtain ⟨k, rfl⟩ := Nat.exists_eq_add_of_le' h
  rfl

/-- What a sequencer word decodes to is the micro-step of the phase it names. -/
theorem microStep_of_decodeSequencer {q : SeqWord} {i : Instr} (h : decodeSequencer q = .ok i) :
    ∃ rev p, microStep rev p = some i := by
  unfold decodeSequencer at h
  split at h
  case h_1 => cases h
  case h_2 p _ =>
    split at h
    case h_1 => cases h
    case h_2 hstep => cases h; exact ⟨_, p, hstep⟩

/-- A micro-step has no operand (R85). -/
theorem wellFormed_microStep {rev : Bool} {p : Phase} {i : Instr} (c : Config)
    (h : microStep rev p = some i) : WellFormed c i = true := by
  cases p
  case idle => cases h
  case rdidx => cases rev <;> cases h <;> rfl
  all_goals cases h; rfl

/-- Settles O3, port by port: a command word is rebuilt from its two fields. -/
theorem decodedWordsEncodeBack : Obligations.DecodedWordsEncodeBack := by
  intro c t i h
  cases t with
  | sample w =>
    rw [decode] at h
    split at h
    case isTrue hw => cases h; exact ⟨decide_eq_true hw, fun _ => rfl⟩
    case isFalse => cases h
  | command w =>
    rw [decode] at h
    split at h
    case isTrue hw =>
      cases h
      refine ⟨?_, fun _ => ?_⟩
      · rw [wellFormed_commandInstr]; exact decide_eq_true (commandData_lt c w)
      · rw [encode_commandInstr c _ (commandSel_lt c w), commandWord_fields hw]
    case isFalse => cases h
  | resetLine b =>
    cases b
    case true => cases h; exact ⟨rfl, fun _ => rfl⟩
    case false => cases h
  | sequencer q =>
    obtain ⟨rev, p, hp⟩ := microStep_of_decodeSequencer h
    exact ⟨wellFormed_microStep c hp, fun hq => absurd rfl (hq q)⟩

/-! What a command word's operation does (R90, R91). -/

theorem writeParam_of_illegal {reg : ParamReg} {v : Nat} {s : State} (h : ¬ paramLegal s.cfg reg v = true) :
    writeParam reg v s = .refused (.illegalParameter reg v) := if_neg h

/-- A register number of the parameter space selects the write of that register. -/
theorem commandInstr_of_paramOfSel {sel : Nat} {reg : ParamReg} (v : Nat) (h : paramOfSel sel = some reg) :
    commandInstr sel v = writeInstr reg v := by
  unfold paramOfSel at h
  split at h <;> cases h <;> rfl

theorem lt_of_paramOfSel {sel : Nat} {reg : ParamReg} (h : paramOfSel sel = some reg) : sel < 8 := by
  unfold paramOfSel at h
  split at h <;> cases h <;> decide

/-- The command word of a parameter write: refused where the value is illegal, done where it is legal. -/
theorem parameterWord_runs {s t : State} {sel v : Nat} {reg : ParamReg} {bad good : Prop}
    (hsel : paramOfSel sel = some reg) (hv : v < 2 ^ s.cfg.dataW)
    (hbad : bad → ¬ paramLegal s.cfg reg v = true) (hgood : good → paramLegal s.cfg reg v = true)
    (ht : good → t = setParam reg v s) :
    ∃ i, decode s.cfg (.command (sel * 2 ^ s.cfg.dataW + v)) = .ok i ∧
      (bad → exec i s = .refused (.illegalParameter reg v)) ∧ (good → exec i s = .next t) := by
  refine ⟨writeInstr reg v, ?_, ?_⟩
  · rw [← commandInstr_of_paramOfSel v hsel]
    exact Laws.RoundTrip.decode_commandWord s.cfg (lt_of_paramOfSel hsel) hv
  · rw [exec_writeInstr]
    exact ⟨fun h => writeParam_of_illegal (hbad h), fun h => writeParam_eq_next.2 ⟨hgood h, ht h⟩⟩

/-- Settles O9: each register's word runs as a write of its data, and what is left compares the named values
with the legal range. A capacity of at least 2 makes `1` and `N - 1` legal delays. -/
theorem illegalCommandWordsRefused : Obligations.IllegalCommandWordsRefused := by
  intro s hc data hd
  have hcap := hc.two_le_capacity
  have hfirst : Transaction.command data = .command (0 * 2 ^ s.cfg.dataW + data) := by
    rw [Nat.zero_mul, Nat.zero_add]
  rw [hfirst]
  refine ⟨parameterWord_runs rfl hd ?delayBad ?delayGood fun _ => rfl,
    parameterWord_runs rfl hd ?revBad ?revGood (by rintro rfl; rfl),
    parameterWord_runs rfl hd ?repBad ?repGood fun _ => rfl,
    parameterWord_runs rfl hd ?wetBad ?wetGood fun _ => rfl,
    parameterWord_runs rfl hd ?shimBad ?shimGood fun _ => rfl⟩
  all_goals rw [paramLegal_iff]; dsimp only; omega

/-- Settles O10: `sel` is one of three numbers. -/
theorem reservedRegistersRefused : Obligations.ReservedRegistersRefused := by
  intro s sel data h5 h7 hd
  refine ⟨commandInstr sel data, Laws.RoundTrip.decode_commandWord s.cfg (by omega) hd, ?_⟩
  interval_cases sel
  · exact ⟨.inl rfl, rfl⟩
  · exact ⟨.inr ⟨false, rfl⟩, rfl⟩
  · exact ⟨.inr ⟨true, rfl⟩, rfl⟩

/-- Settles O4: the decoder evaluated at each of the 32 sequencer words. -/
theorem sequencerWordsSelectMicroSteps : Obligations.SequencerWordsSelectMicroSteps := by
  intro c q
  rw [decode]
  revert q
  decide

/-- Settles O5: outside 0 to 10 the code names no phase, and phase 0 has no micro-step. -/
theorem phaseCodesAboveTenUnreachable : Obligations.PhaseCodesAboveTenUnreachable := by
  refine ⟨fun p => ?codes, fun c q h => ?above, fun c q h => ?zero, fun s x h => if_neg h⟩
  case codes => cases p <;> decide
  case above => rw [decode, decodeSequencer, seqPhaseCode, phaseOfCode_eq_none h]
  case zero => rw [decode, decodeSequencer, seqPhaseCode, h]; rfl

/-- Settles O6: eight words, each evaluated. -/
theorem writtenOutWordsDecode : Obligations.WrittenOutWordsDecode := by
  unfold Obligations.WrittenOutWordsDecode
  decide

end Sys2Proof.Machine

/-! The micro-steps and the composite of the invocation cycle: the tick and its runs, the two read indices, the
snapshot, the store and the advance (`spec/40_cycle_and_indexing.md`). -/

namespace Sys2Proof.Machine

open Sys2Proof

/-- Settles O28: the closed form of a ready state's tick. -/
theorem tickIsOneInvocation : Obligations.TickIsOneInvocation := fun _ x h _ => execTick_of_ready x h

/-! The playback mode selects one of two forms of one index, so an invocation's closed form does not read it
(R116). -/

/-- The output of R110 does not depend on the playback mode. -/
theorem tickOutput_pRev (s : State) (b : Bool) (x : Nat) :
    tickOutput { s with pRev := b } x = tickOutput s x := by
  have htaps := tapSum_congr (afterStore s x) (afterStore { s with pRev := b } x) rfl rfl rfl
  unfold tickOutput delayedSample
  simp only [htaps]
  rfl

theorem afterTick_pRev_comm (s : State) (b : Bool) (x : Nat) :
    afterTick { s with pRev := b } x = { afterTick s x with pRev := b } := by
  unfold afterTick
  rw [tickOutput_pRev]
  rfl

theorem afterTicks_pRev_comm (s : State) (b : Bool) (xs : List Nat) :
    afterTicks { s with pRev := b } xs = { afterTicks s xs with pRev := b } := by
  induction xs generalizing s with
  | nil => rfl
  | cons x xs ih => rw [afterTicks_cons, afterTicks_cons, afterTick_pRev_comm, ih]

/-- Both values of `P_REV` are legal (R27). -/
theorem ready_pRev {s : State} (h : s.Ready) (b : Bool) : State.Ready { s with pRev := b } :=
  ⟨{ h.legal with }, h.idle, h.atomic⟩

/-- Settles O43: both runs are in closed form, which commutes with the change of mode. -/
theorem reverseModeHasNoEffect : Obligations.ReverseModeHasNoEffect := by
  intro xs s h hxs
  exact ⟨afterTicks s xs, (runTicks_of_ready h hxs).1,
    afterTicks_pRev_comm s (!s.pRev) xs ▸ (runTicks_of_ready (ready_pRev h (!s.pRev)) hxs).1⟩

/-- Settles O16: the write is `memWrite` at the cursor. -/
theorem storeWritesAtCursor : Obligations.StoreWritesAtCursor := by
  intro s v hx hwc
  obtain ⟨t, ht⟩ : ∃ t : State, t = { s with buf := memWrite s.buf s.wc v, phase := .rdidx } := ⟨_, rfl⟩
  have hread : ∀ j, entry t j = if j = s.wc then v else entry s j :=
    entry_write s t (by rw [ht]) (by rw [ht]) (by rw [ht])
  refine ⟨t, execStore_eq_next.2 ⟨v, hx, hwc, ht⟩, by rw [ht], ?_, fun j hj => ?_, fun hwf => ?_⟩
  · rw [hread, if_pos rfl]
  · rw [hread, if_neg hj]
  · rw [ht]; exact memWrite_wf _ _ hwf

/-! The two read indices, branch by branch (R114, R115). -/

section ReadIndex

variable {n wc d : Nat}

/-- The forward index without a wrap. -/
theorem forwardIndex_of_le (hwc : wc < n) (h : d ≤ wc) : forwardIndex n wc d = wc - d := by
  rw [forwardIndex, show wc + n - d = wc - d + n by omega, Nat.add_mod_right, Nat.mod_eq_of_lt (by omega)]

/-- The forward index with a wrap. -/
theorem forwardIndex_of_lt (h : wc < d) (hd : d < n) : forwardIndex n wc d = wc + n - d :=
  Nat.mod_eq_of_lt (by omega)

/-- The longest delay reads the entry that the next invocation overwrites. -/
theorem forwardIndex_longest (hn : 0 < n) : forwardIndex n wc (n - 1) = (wc + 1) % n := by
  rw [forwardIndex, show wc + n - (n - 1) = wc + 1 by omega]

theorem reverseIndex_of_lt (h : wc < d) : reverseIndex n wc d = (wc + n - d) % n :=
  if_pos (decide_eq_true h)

theorem reverseIndex_of_le (h : d ≤ wc) : reverseIndex n wc d = (wc - d) % n :=
  if_neg (by simpa [wrapsBehind] using h)

end ReadIndex

/-- Settles O17: the step leaves `forwardIndex` in `RI`, of which the lemmas above speak. -/
theorem forwardReadIndex : Obligations.ForwardReadIndex := by
  intro s p hp hwc hd
  have hpos : 0 < s.cfg.capacity := Nat.zero_lt_of_lt hwc
  exact ⟨forwardIndex s.cfg.capacity s.wc p.delay, setReadIndex_eq_next.2 ⟨p, hp, hd, rfl⟩, rfl,
    forwardIndex_lt _ _ hpos, forwardIndex_of_le hwc, fun h => forwardIndex_of_lt h hd,
    fun h => h ▸ forwardIndex_longest hpos, forwardIndex_eq_cursor_iff hwc hd⟩

/-- Settles O18: the step leaves `reverseIndex` in `RI`; the range is that of the forward index, and both corner
cases lie in the branch without a wrap. -/
theorem reverseReadIndex : Obligations.ReverseReadIndex := by
  intro s p hp hwc hd
  refine ⟨reverseIndex s.cfg.capacity s.wc p.delay, setReadIndex_eq_next.2 ⟨p, hp, hd, rfl⟩, ?range,
    reverseIndex_of_lt, reverseIndex_of_le, fun h => ?atCursor, fun h => ?noDelay⟩
  case range =>
    rw [reverseIndex_eq_forwardIndex]
    exact forwardIndex_lt _ _ (Nat.zero_lt_of_lt hwc)
  case atCursor => rw [reverseIndex_of_le h.ge, h, Nat.sub_self, Nat.zero_mod]
  case noDelay => rw [h, reverseIndex_of_le (Nat.zero_le _), Nat.sub_zero, Nat.mod_eq_of_lt hwc]

/-- Settles O20: the forms differ in the index function only, and the two functions are equal. -/
theorem forwardAndReverseAgree : Obligations.ForwardAndReverseAgree := by
  intro s
  have hindex : reverseIndex = forwardIndex :=
    funext fun n => funext fun wc => funext fun d => reverseIndex_eq_forwardIndex n wc d
  calc exec .rdidxR s = setReadIndex reverseIndex s := rfl
    _ = setReadIndex forwardIndex s := by rw [hindex]
    _ = exec .rdidxF s := rfl

/-! The trace of a run (R163). -/

theorem tickOutput_le (s : State) (x : Nat) : tickOutput s x ≤ s.cfg.fs := Nat.min_le_right _ _

/-- A run emits one pair for each input, with that input, and each output in `[0, FS]`. -/
theorem afterTicks_emitted (s : State) (xs : List Nat) : ∃ ys : List Nat, ys.length = xs.length ∧
    (afterTicks s xs).emitted = s.emitted ++ xs.zip ys ∧ ∀ y ∈ ys, y ≤ s.cfg.fs := by
  induction xs generalizing s with
  | nil => exact ⟨[], rfl, (List.append_nil _).symm, by simp⟩
  | cons x xs ih =>
    obtain ⟨ys, hlen, hemitted, hle⟩ := ih (afterTick s x)
    refine ⟨tickOutput s x :: ys, by rw [List.length_cons, hlen, List.length_cons], ?_,
      List.forall_mem_cons.2 ⟨tickOutput_le s x, hle⟩⟩
    rw [afterTicks_cons, hemitted, afterTick_emitted, List.append_assoc]
    rfl

/-- Settles O38: a run from a ready state ends at `afterTicks`. -/
theorem ticksAlwaysComplete : Obligations.TicksAlwaysComplete := by
  intro xs s h hxs
  obtain ⟨hrun, hready⟩ := runTicks_of_ready h hxs
  have hparams : readParams (afterTicks s xs) = readParams s :=
    afterTicks_keeps (f := readParams) (fun _ _ => rfl) s xs
  exact ⟨afterTicks s xs, hrun, hready, hparams, afterTicks_emitted s xs⟩

/-- Settles O39: a run from a ready state ends at `afterTicks`, whose cursor is `afterTicks_wc`. -/
theorem cursorCountsInvocations : Obligations.CursorCountsInvocations := fun xs s h hxs =>
  ⟨afterTicks s xs, (runTicks_of_ready h hxs).1, afterTicks_wc h.legal.wc xs⟩

/-- Settles O14: the Parameter Set as the five registers hold it is the snapshot. -/
theorem latchTakesSnapshot : Obligations.LatchTakesSnapshot := fun _ => execLatch_eq_next.2 rfl

/-- One above the cursor, modulo `N`, is 0 at the last entry only. -/
theorem cursor_next_eq {n wc : Nat} (h : wc < n) :
    (wc + 1) % n = if wc = n - 1 then 0 else wc + 1 := by
  by_cases hlast : wc = n - 1
  · rw [if_pos hlast, show wc + 1 = n by omega, Nat.mod_self]
  · rw [if_neg hlast, Nat.mod_eq_of_lt (by omega)]

/-- Settles O26: what ADV answers, and the cursor's two cases. -/
theorem advanceMovesCursor : Obligations.AdvanceMovesCursor := fun s =>
  ⟨{ clearWork s with wc := (s.wc + 1) % s.cfg.capacity, phase := .idle }, execAdv_eq_next.2 rfl, rfl, rfl,
    cursor_next_eq, rfl⟩

end Sys2Proof.Machine

/-! The echo stage: the seed, the bounds of the tap sum, and the delayed sample as the history of the inputs
(`spec/41_echo.md`). -/

namespace Sys2Proof.Machine

open Sys2Proof

/-- Settles O21: the read index exists, so the access is made. -/
theorem seedReadsBaseSample : Obligations.SeedReadsBaseSample := fun _ i hi hlt =>
  execSeed_eq_next.2 ⟨i, hi, hlt, rfl⟩

/-! The tap sum, tap by tap (R141, R142). -/

theorem tapSum_le_succ (s : State) (i d n : Nat) : tapSum s i d n ≤ tapSum s i d (n + 1) := Nat.le_add_right _ _

/-- The tap sum grows with every entry it reads (R142 item c). -/
theorem tapSum_mono {s u : State} (hu : u.Legal) (hcfg : u.cfg = s.cfg) (hle : ∀ j, entry s j ≤ entry u j)
    (i d n : Nat) : tapSum s i d n ≤ tapSum u i d n := by
  induction n with
  | zero => exact Nat.le_refl 0
  | succ n ih =>
    simp only [tapSum, ← hcfg]
    exact Nat.add_le_add ih (hu.cfg.echo_mono _ _ (hle _) (entry_le hu.entries _))

/-- Each tap adds at most `echoScale(FS)` (R142 item b). -/
theorem tapSum_le {s : State} (h : s.Legal) (i d n : Nat) :
    tapSum s i d n ≤ n * echoScale s.cfg s.cfg.fs := by
  induction n with
  | zero => exact Nat.zero_le _
  | succ n ih =>
    rw [Nat.succ_mul, tapSum]
    exact Nat.add_le_add ih (h.cfg.echo_mono _ _ (entry_le h.entries _) (Nat.le_refl _))

/-- Each tap loses at most four fifths to its rounding (R142 item d). -/
theorem tapSum_rounding {s : State} (h : s.Legal) (i d n : Nat) :
    5 * tapSum s i d n ≤ 2 * rawSum s i d n ∧ 2 * rawSum s i d n ≤ 5 * tapSum s i d n + 4 * n := by
  induction n with
  | zero => exact ⟨Nat.le_refl 0, Nat.le_refl 0⟩
  | succ n ih =>
    have hle := entry_le h.entries ((i + (n + 1) * d) % s.cfg.capacity)
    have habove := h.cfg.echo_above _ hle
    have hbelow := h.cfg.echo_below _ hle
    rw [tapSum, rawSum]
    omega

/-- The accumulated delayed sample is the base sample and the tap sum (R141 item d). -/
theorem delayedSample_eq (s : State) (x : Nat) :
    delayedSample s x = entry (afterStore s x) (forwardIndex s.cfg.capacity s.wc s.pDelay) +
      tapSum (afterStore s x) (forwardIndex s.cfg.capacity s.wc s.pDelay) s.pDelay s.pRep := rfl

/-- At most five taps of at most two fifths of the full scale each (R142 item b). -/
theorem taps_of_fullScale_le {s : State} (h : s.Legal) :
    s.pRep * echoScale s.cfg s.cfg.fs ≤ 2 * s.cfg.fs :=
  calc s.pRep * echoScale s.cfg s.cfg.fs ≤ 5 * echoScale s.cfg s.cfg.fs := Nat.mul_le_mul_right _ h.rep
    _ ≤ 2 * s.cfg.fs := h.cfg.echo_below _ (Nat.le_refl _)

/-- Settles O35: the tap sum's own bounds, read in the state after STORE, which is legal. -/
theorem echoStageBounds : Obligations.EchoStageBounds := by
  intro s x h hx
  have hstore := afterStore_legal h hx
  refine ⟨⟨fun hrep => ?noTaps, Nat.le_add_right _ _, ?perTap, ?total⟩, tapSum_le_succ s,
    fun u i d n hu hcfg hle => tapSum_mono hu hcfg hle i d n, fun i d n => ?rounding⟩
  case noTaps => rw [delayedSample_of_no_taps hrep, entry_afterStore]
  case perTap => exact Nat.add_le_add_left (tapSum_le hstore _ _ _) _
  case total =>
    have hbase : entry (afterStore s x) (forwardIndex s.cfg.capacity s.wc s.pDelay) ≤ s.cfg.fs :=
      entry_le hstore.entries _
    have htaps : tapSum (afterStore s x) (forwardIndex s.cfg.capacity s.wc s.pDelay) s.pDelay s.pRep ≤
        s.pRep * echoScale s.cfg s.cfg.fs := tapSum_le hstore _ _ _
    have hfull := taps_of_fullScale_le h
    rw [delayedSample_eq]
    omega
  case rounding =>
    obtain ⟨hbelow, habove⟩ := tapSum_rounding h i d n
    exact ⟨hbelow, by omega, fun hn => by omega⟩

/-! The taps and the input history (R58, R142 item g). -/

/-- The tap sum written as a sum over the tap numbers. -/
theorem tapSum_eq_sum (s : State) (i d n : Nat) :
    tapSum s i d n = ((List.range n).map fun q =>
      echoScale s.cfg (entry s (echoIndex s.cfg.capacity i (q + 1) d))).sum := by
  induction n with
  | zero => rfl
  | succ n ih => rw [tapSum, ih, List.sum_range_succ, echoIndex]

theorem tapLag_lt {n : Nat} (d r : Nat) (hn : 0 < n) : tapLag n d r < n := by
  unfold tapLag
  split <;> omega

/-- A tap's lag completes its offset to whole turns of the buffer. -/
theorem dvd_offset_add_tapLag {n : Nat} (d r : Nat) (hn : 0 < n) : n ∣ (r - 1) * d + tapLag n d r := by
  have hlt := Nat.mod_lt ((r - 1) * d) hn
  unfold tapLag
  split
  case isTrue h => exact Nat.dvd_of_mod_eq_zero h
  case isFalse h =>
    refine ⟨(r - 1) * d / n + 1, ?_⟩
    have hdiv := Nat.div_add_mod ((r - 1) * d) n
    rw [Nat.mul_add, Nat.mul_one]
    omega

/-- Tap `r` reads where the cursor was as many invocations ago as its lag says (R58). -/
theorem echoIndex_cursor {n w k d r : Nat} (hd : d < n) (hr : 1 ≤ r) (hk : tapLag n d r ≤ k) :
    echoIndex n (forwardIndex n ((w + k) % n) d) r d = (w + (k - tapLag n d r)) % n := by
  rw [echoIndex_from_cursor hd hr, Nat.mod_add_mod, Nat.add_assoc]
  refine (add_mod_eq_add_mod_iff (by omega)).2 ?_
  rw [show k + (r - 1) * d - (k - tapLag n d r) = (r - 1) * d + tapLag n d r by omega]
  exact dvd_offset_add_tapLag d r (Nat.zero_lt_of_lt hd)

/-- Less than `N` invocations back from the present one, the input of then stands where the cursor was. -/
theorem entry_afterStore_of_lag {s : State} (hwc : s.wc < s.cfg.capacity) (xs : List Nat) (x : Nat) {lag : Nat}
    (hlag : lag < s.cfg.capacity) (hle : lag ≤ xs.length) :
    entry (afterStore (afterTicks s xs) x) ((s.wc + (xs.length - lag)) % s.cfg.capacity) =
      (xs ++ [x]).getD (xs.length - lag) 0 := by
  have hlen : (xs ++ [x]).length = xs.length + 1 := List.length_append
  rw [entry_afterStore, ← afterTicks_append_singleton, List.getD_eq_getElem?_getD,
    entry_afterTicks_of_recent hwc (by omega) (by omega), Option.getD_some]

/-- Settles O42: the base and each tap read where the cursor was less than `N` invocations ago, and the history
of the inputs up to the present one says what stands there. -/
theorem echoesFollowInputHistory : Obligations.EchoesFollowInputHistory := by
  intro xs x s h hxs _ hfilled
  have hwc := h.legal.wc
  have hd := h.legal.delay_lt
  have hcursor : (afterTicks s xs).wc = (s.wc + xs.length) % s.cfg.capacity := afterTicks_wc hwc xs
  have hbase : entry (afterStore (afterTicks s xs) x)
      (forwardIndex s.cfg.capacity (afterTicks s xs).wc s.pDelay) =
        (xs ++ [x]).getD (xs.length - s.pDelay) 0 := by
    rw [hcursor, forwardIndex_cursor hd (by omega), entry_afterStore_of_lag hwc xs x hd (by omega)]
  have htap : ∀ q, entry (afterStore (afterTicks s xs) x)
      (echoIndex s.cfg.capacity (forwardIndex s.cfg.capacity (afterTicks s xs).wc s.pDelay) (q + 1) s.pDelay) =
        (xs ++ [x]).getD (xs.length - tapLag s.cfg.capacity s.pDelay (q + 1)) 0 := fun q => by
    have hlag := tapLag_lt s.pDelay (q + 1) (Nat.zero_lt_of_lt hd)
    rw [hcursor, echoIndex_cursor hd (Nat.le_add_left 1 q) (by omega),
      entry_afterStore_of_lag hwc xs x hlag (by omega)]
  refine ⟨afterTicks s xs, (runTicks_of_ready h hxs).1, ?_⟩
  simp only [delayedSample_eq, tapSum_eq_sum, afterStore_cfg, afterTicks_cfg, afterTicks_pDelay,
    afterTicks_pRep, hbase, htap]

end Sys2Proof.Machine

/-! The shimmer stage: the sign rule, the two ends of the depth, and what SHIM writes (`spec/42_shimmer.md`). -/

namespace Sys2Proof.Machine

open Sys2Proof

/-- The bits exceed the threshold strictly: the sign is positive (R150). -/
theorem shimSign_of_lt {c : Config} {low : Nat} (h : c.shimThresh < low) : shimSign c low = .plus := if_pos h

/-- The bits reach the threshold at most: the sign is negative (R150). -/
theorem shimSign_of_le {c : Config} {low : Nat} (h : low ≤ c.shimThresh) : shimSign c low = .minus :=
  if_neg (Nat.not_lt.2 h)

/-- At depth 0 nothing is added or subtracted (R151). -/
theorem shimDelta_zero (c : Config) (a : Nat) : shimDelta c a 0 = 0 := by
  rw [shimDelta, Nat.mul_zero, Nat.zero_div]

/-- At full depth the whole accumulator is added or subtracted (R151). -/
theorem shimDelta_one (c : Config) (a : Nat) : shimDelta c a c.one = a := Nat.mul_div_cancel a (one_pos c)

theorem shimApply_zero (g : Sign) (a : Nat) : shimApply g a 0 = a := by cases g <;> rfl

/-- Perturbed by the whole of itself, a value is doubled or cancelled. -/
theorem shimApply_self (g : Sign) (a : Nat) : shimApply g a a = 2 * a ∨ shimApply g a a = 0 := by
  cases g
  case plus => exact .inl (Nat.two_mul a).symm
  case minus => exact .inr (Nat.sub_self a)

/-- Settles O23: SHIM completes, and the clauses are the sign rule, the bounds of DELTA and SH, and the two ends
of the depth; the subtraction gives back ACC because DELTA is at most ACC. -/
theorem shimmerPerturbsBySign : Obligations.ShimmerPerturbsBySign := by
  intro s p a ha hp hk
  have hdelta : shimDelta s.cfg a p.shim ≤ a := shimDelta_le hk
  refine ⟨shimSign s.cfg (lowBits s.cfg a), shimDelta s.cfg a p.shim, _,
    execShim_eq_next.2 ⟨a, p, ha, hp, hk, rfl⟩, fun hlow => ?plus, fun hlow => ?minus, rfl, hdelta,
    shimApply_le hdelta, fun hzero => ?depthZero, fun hone => ?depthOne⟩
  case plus =>
    rw [lowBits, shimSign_of_lt hlow]
    exact ⟨rfl, rfl⟩
  case minus =>
    rw [lowBits, shimSign_of_le hlow]
    exact ⟨rfl, Nat.sub_add_cancel hdelta⟩
  case depthZero => rw [hzero, shimDelta_zero, shimApply_zero]
  case depthOne =>
    rw [hone, shimDelta_one]
    exact ⟨rfl, shimApply_self _ a⟩

end Sys2Proof.Machine

/-! The mix and the output: the crossfade and its ends, the clamp and when it engages, and who hands a sample out
(`spec/43_mix_and_emit.md`). -/

namespace Sys2Proof.Machine

open Sys2Proof

/-- At blend 0 nothing of the wet input is left (R161). -/
theorem crossfade_zero (c : Config) (x h : Nat) : crossfade c x h 0 = x := by
  rw [crossfade, Nat.sub_zero, Nat.mul_zero, Nat.add_zero, Nat.mul_div_cancel _ (one_pos c)]

/-- At full blend nothing of the dry input is left (R161). -/
theorem crossfade_one (c : Config) (x h : Nat) : crossfade c x h c.one = h := by
  rw [crossfade, Nat.sub_self, Nat.mul_zero, Nat.zero_add, Nat.mul_div_cancel _ (one_pos c)]

/-- Settles O24: MIX completes with the crossfade, whose bounds and two ends are the clauses. -/
theorem mixCrossfades : Obligations.MixCrossfades := by
  intro s p v h hv hh hp hwet
  obtain ⟨hlower, hupper⟩ := crossfade_between (x := v) (h := h) hwet
  exact ⟨crossfade s.cfg v h p.wet, execMix_eq_next.2 ⟨v, h, p, hv, hh, hp, hwet, rfl⟩, rfl, hlower, hupper,
    fun hdry => by rw [hdry, crossfade_zero], fun hfull => by rw [hfull, crossfade_one]⟩

/-- Settles O33: the two ends of the crossfade in the closed form of an invocation. -/
theorem mixBoundaries : Obligations.MixBoundaries := fun _ x _ hx =>
  ⟨fun hwet => tickOutput_of_dry hwet hx, fun hwet => tickOutput_of_wet hwet x⟩

/-- Settles O25: EMIT completes from `MIXW` alone, and the clamp is the minimum with FS. -/
theorem emitClampsAndHandsOut : Obligations.EmitClampsAndHandsOut := by
  intro s m hm
  refine ⟨sampleInput s, outputOf s.cfg m, execEmit_eq_next.2 ⟨m, hm, rfl⟩, fun hle => ?within,
    fun hlt => ?above, fun w => sampleInput_of_some, fun hnone => ?free⟩
  case within => rw [outputOf_eq_min, Nat.min_eq_left hle]
  case above => rw [outputOf_eq_min, Nat.min_eq_right hlt.le]
  case free => exact sampleInput_le fun v hv => by simp [hnone] at hv

/-! When the clamp engages (R164). -/

/-- Above a bound that the input keeps, the crossfade needs a shimmer sample above it. -/
theorem lt_of_lt_crossfade {c : Config} {x h w b : Nat} (hw : w ≤ c.one) (hx : x ≤ b)
    (hb : b < crossfade c x h w) : b < h :=
  (lt_max_iff.1 (hb.trans_le (crossfade_between hw).2)).resolve_left (Nat.not_lt.2 hx)

/-- Shimmer exceeds a bound only by adding, or from a value that exceeds it already (R150). -/
theorem lt_of_lt_shimmered {c : Config} {a k b : Nat} (h : b < shimmered c a k) :
    b < a ∨ shimSign c (lowBits c a) = .plus ∧ b < a + shimDelta c a k := by
  rw [← shimApply_eq_shimmered] at h
  cases hsign : shimSign c (lowBits c a) <;> rw [hsign] at h
  case plus => exact .inr ⟨rfl, h⟩
  case minus => exact .inl (Nat.lt_of_lt_of_le h (Nat.sub_le _ _))

/-- Settles O34: from the output back through the crossfade and the shimmer stage to the delayed sample. -/
theorem clampEngagesOnlyWhenNeeded : Obligations.ClampEngagesOnlyWhenNeeded := by
  intro s x h hx b acc sh mixw
  have hbase : b ≤ s.cfg.fs := entry_le (afterStore_legal h hx).entries _
  have noTaps : s.pRep = 0 → acc = b := fun hrep =>
    (delayedSample_of_no_taps hrep x).trans (entry_afterStore s x _).symm
  have clamped : tickOutput s x = min mixw s.cfg.fs := rfl
  have needsShimmer : s.cfg.fs < mixw → s.cfg.fs < sh := lt_of_lt_crossfade h.wet hx
  refine ⟨fun hlt => clamped.trans (Nat.min_eq_right hlt.le), fun hle => clamped.trans (Nat.min_eq_left hle),
    needsShimmer, fun hlt => ?source, fun hrep => (noTaps hrep).trans_le hbase, fun hrep hshim => ?pureCrossfade⟩
  case source =>
    exact (lt_of_lt_shimmered hlt).imp_left fun hacc =>
      ⟨Nat.pos_of_ne_zero fun hrep => Nat.not_lt.2 hbase (noTaps hrep ▸ hacc), hacc⟩
  case pureCrossfade =>
    have hsh : sh = b := by rw [← noTaps hrep, ← shimmered_zero s.cfg acc, ← hshim]
    have hmix : mixw ≤ s.cfg.fs := Nat.not_lt.1 fun hlt => Nat.not_lt.2 hbase (hsh ▸ needsShimmer hlt)
    have hcross : mixw = crossfade s.cfg x b s.pWet := congrArg (crossfade s.cfg x · s.pWet) hsh
    exact ⟨hsh, hbase, hmix, (clamped.trans (Nat.min_eq_left hmix)).trans hcross⟩

/-! Who hands a sample out (R162, R163). -/

theorem setReadIndex_sampleIn {f : Nat → Nat → Nat → Nat} {s t : State} (h : setReadIndex f s = .next t) :
    t.sampleIn = s.sampleIn := by
  obtain ⟨p, -, -, rfl⟩ := setReadIndex_eq_next.1 h
  rfl

/-- The sample of the transaction stays until ADV ends the invocation. -/
theorem microStep_sampleIn {rev : Bool} {p : Phase} {i : Instr} {s t : State}
    (hi : microStep rev p = some i) (hadv : p ≠ .adv) (h : exec i s = .next t) : t.sampleIn = s.sampleIn := by
  cases p <;> simp only [microStep, Option.some.injEq, reduceCtorEq] at hi <;> subst hi
  case latch =>
    obtain rfl := execLatch_eq_next.1 h
    rfl
  case acq =>
    obtain rfl := execAcq_eq_next.1 h
    rfl
  case store =>
    obtain ⟨v, -, -, rfl⟩ := execStore_eq_next.1 h
    rfl
  case rdidx => cases rev <;> exact setReadIndex_sampleIn h
  case seed =>
    obtain ⟨i, -, -, rfl⟩ := execSeed_eq_next.1 h
    rfl
  case tap =>
    obtain ⟨p, r, -, -, -, ⟨-, rfl⟩ | ⟨-, i, a, -, -, -, rfl⟩⟩ := execTap_eq_next.1 h
    · rfl
    · rfl
  case shim =>
    obtain ⟨a, p, -, -, -, rfl⟩ := execShim_eq_next.1 h
    rfl
  case mix =>
    obtain ⟨v, w, p, -, -, -, -, rfl⟩ := execMix_eq_next.1 h
    rfl
  case emit =>
    obtain ⟨m, -, rfl⟩ := execEmit_eq_next.1 h
    rfl
  case adv => exact absurd rfl hadv

/-- The parts of the state that EMIT's pair depends on beside `MIXW`, and the trace it goes to. -/
def inputAndTrace (s : State) : Config × Option Nat × List (Nat × Nat) := (s.cfg, s.sampleIn, s.emitted)

theorem microStep_inputAndTrace (rev : Bool) (p : Phase) {i : Instr} {s t : State}
    (hi : microStep rev p = some i) (hp : p ≠ .emit ∧ p ≠ .adv) (h : exec i s = .next t) :
    inputAndTrace t = inputAndTrace s := by
  obtain ⟨hemit, hadv⟩ := hp
  simp only [inputAndTrace, (microStep_frame hi h).cfg, microStep_sampleIn hi hadv h,
    (microStep_ownership hi h).emitted hemit]

/-- EMIT appends one pair, the input as the port gives it and an output in `[0, FS]` (R162). -/
theorem execEmit_emitted {s t : State} (h : execEmit s = .next t) :
    ∃ y, t.emitted = s.emitted ++ [(sampleInput s, y)] ∧ y ≤ s.cfg.fs := by
  obtain ⟨m, -, rfl⟩ := execEmit_eq_next.1 h
  exact ⟨outputOf s.cfg m, rfl, outputOf_le _ _⟩

/-- An invocation hands out one sample, beside the sample of its transaction (R110, R163). -/
theorem runInvocation_emitted {s t : State} {x : Nat} (hx : s.sampleIn = some x) (h : runInvocation s = .next t) :
    ∃ y, t.emitted = s.emitted ++ [(x, y)] ∧ y ≤ s.cfg.fs := by
  obtain ⟨a, b, c, d, e, f, g, k, l, hlatch, hacq, hstore, hread, hseed, htaps, hshim, hmix, hemit, hadv⟩ :=
    runInvocation_eq_next.1 h
  obtain ⟨-, hread⟩ := selectReadIndex_eq_next.1 hread
  have beforeEmit : inputAndTrace k = inputAndTrace s :=
    calc inputAndTrace k = inputAndTrace g := microStep_inputAndTrace false .mix rfl (by decide) hmix
      _ = inputAndTrace f := microStep_inputAndTrace false .shim rfl (by decide) hshim
      _ = inputAndTrace e := tapLoop_preserves (P := fun u => inputAndTrace u = inputAndTrace e)
          (fun u v hu huv => (microStep_inputAndTrace false .tap rfl (by decide) huv).trans hu) rfl htaps
      _ = inputAndTrace d := microStep_inputAndTrace false .seed rfl (by decide) hseed
      _ = inputAndTrace c := microStep_inputAndTrace (latchedRev c) .rdidx rfl (by decide) hread
      _ = inputAndTrace b := microStep_inputAndTrace false .store rfl (by decide) hstore
      _ = inputAndTrace a := microStep_inputAndTrace false .acq rfl (by decide) hacq
      _ = inputAndTrace s := microStep_inputAndTrace false .latch rfl (by decide) hlatch
  simp only [inputAndTrace, Prod.mk.injEq] at beforeEmit
  obtain ⟨hcfg, hin, htrace⟩ := beforeEmit
  obtain rfl := execAdv_eq_next.1 hadv
  obtain ⟨y, hy, hle⟩ := execEmit_emitted hemit
  rw [sampleInput_of_some (hin.trans hx), htrace] at hy
  exact ⟨y, hy, hcfg ▸ hle⟩

/-- A tick of the atomic reading hands out one sample, the start of the stepped reading none (R9). -/
theorem execTick_emitted {x : Nat} {s t : State} (h : execTick x s = .next t) :
    t.emitted = s.emitted ∨ ∃ y, t.emitted = s.emitted ++ [(x, y)] ∧ y ≤ s.cfg.fs := by
  obtain ⟨-, ⟨-, rfl⟩ | ⟨-, hrun⟩⟩ := execTick_eq_next.1 h
  · exact .inl rfl
  · exact .inr (runInvocation_emitted (s := startInvocation x s) rfl hrun)

/-- Settles O48: of the four kinds of instruction that complete, TICK and the micro-step of PHASE 9 emit. -/
theorem onlyEmitHandsOut : Obligations.OnlyEmitHandsOut := by
  intro i s t h
  obtain ⟨x, rfl⟩ | rfl | ⟨reg, v, rfl⟩ | ⟨rev, p, hi⟩ := completing_cases h
  · refine (execTick_emitted h).imp_right fun ⟨y, hy, hle⟩ => ⟨.inr ⟨x, rfl⟩, x, y, hy, hle, ?_⟩
    exact fun w hw => Instr.tick.inj hw
  · obtain rfl := execReset_eq_next.1 h
    exact .inl (resetState_emitted s)
  · obtain rfl := exec_writeInstr_eq_setParam h
    exact .inl (setParam_emitted reg v s)
  · by_cases hp : p = .emit
    · obtain rfl : i = .emit := by subst hp; exact (Option.some.inj hi).symm
      obtain ⟨y, hy, hle⟩ := execEmit_emitted h
      exact .inr ⟨.inl rfl, sampleInput s, y, hy, hle, fun w hw => nomatch hw⟩
    · exact .inl ((microStep_ownership hi h).emitted hp)

end Sys2Proof.Machine

/-! The control port: a legal write, several writes one after the other, and the latch between two of them
(`spec/44_control_port.md`). -/

namespace Sys2Proof.Machine

open Sys2Proof

/-- A write of a legal value completes, at any phase (R175 to R180). -/
theorem exec_writeInstr_of_legal {reg : ParamReg} {v : Nat} {s : State} (h : paramLegal s.cfg reg v = true) :
    exec (writeInstr reg v) s = .next (setParam reg v s) := by
  rw [exec_writeInstr]
  exact writeParam_eq_next.2 ⟨h, rfl⟩

/-- Settles O7: each clause is the write of one register, its premises that register's legal range. -/
theorem legalWritesTakeEffect : Obligations.LegalWritesTakeEffect := fun s _ =>
  have legal := paramLegal_iff s.cfg
  ⟨fun hlo hhi => exec_writeInstr_of_legal (reg := .delay) ((legal _ _).2 ⟨hlo, hhi⟩),
    fun h => exec_writeInstr_of_legal (reg := .rev) ((legal _ _).2 h),
    fun h => exec_writeInstr_of_legal (reg := .rep) ((legal _ _).2 h),
    fun h => exec_writeInstr_of_legal (reg := .wet) ((legal _ _).2 h),
    fun h => exec_writeInstr_of_legal (reg := .shim) ((legal _ _).2 h)⟩

/-- The state after a list of legal writes, the first of the list first. -/
def afterWrites (s : State) (ws : List (ParamReg × Nat)) : State :=
  ws.foldl (fun t p => setParam p.1 p.2 t) s

@[simp] theorem afterWrites_nil (s : State) : afterWrites s [] = s := rfl

@[simp] theorem afterWrites_cons (s : State) (p : ParamReg × Nat) (ws : List (ParamReg × Nat)) :
    afterWrites s (p :: ws) = afterWrites (setParam p.1 p.2 s) ws := rfl

/-- Legal writes one after the other complete: none of them changes the ranges of the next. -/
theorem runInstrs_writes {ws : List (ParamReg × Nat)} {s : State}
    (h : ∀ p ∈ ws, paramLegal s.cfg p.1 p.2 = true) :
    runInstrs (ws.map fun p => writeInstr p.1 p.2) s = .next (afterWrites s ws) := by
  induction ws generalizing s with
  | nil => rfl
  | cons p ws ih =>
    obtain ⟨hp, hws⟩ := List.forall_mem_cons.1 h
    have rest := ih (s := setParam p.1 p.2 s) (by rwa [setParam_cfg])
    rw [List.map_cons, runInstrs, exec_writeInstr_of_legal hp, andThen_next, rest, afterWrites_cons]

/-- Writes leave everything but the five registers. -/
theorem afterWrites_frame (s : State) (ws : List (ParamReg × Nat)) :
    afterWrites s ws = { s with
      pDelay := (afterWrites s ws).pDelay, pRev := (afterWrites s ws).pRev
      pRep := (afterWrites s ws).pRep, pWet := (afterWrites s ws).pWet
      pShim := (afterWrites s ws).pShim } := by
  induction ws generalizing s with
  | nil => rfl
  | cons p ws ih =>
    obtain ⟨reg, v⟩ := p
    cases reg <;> exact ih _

/-- The writes of a PSET, in register-number order (R96, R186). -/
def psetWrites (d rev n w h : Nat) : List (ParamReg × Nat) :=
  [(.delay, d), (.rev, rev), (.rep, n), (.wet, w), (.shim, h)]

theorem psetInstrs_eq_map (d rev n w h : Nat) :
    psetInstrs d rev n w h = (psetWrites d rev n w h).map fun p => writeInstr p.1 p.2 := rfl

theorem psetWrites_legal {c : Config} {d rev n w h : Nat} (hd : 1 ≤ d ∧ d ≤ c.capacity - 1) (hrev : rev ≤ 1)
    (hn : n ≤ 5) (hw : w ≤ c.one) (hh : h ≤ c.one) :
    ∀ p ∈ psetWrites d rev n w h, paramLegal c p.1 p.2 = true := by
  simp only [psetWrites, List.forall_mem_cons, paramLegal_iff]
  exact ⟨hd, hrev, hn, hw, hh, fun _ hp => nomatch hp⟩

/-- What the registers hold after the first `k` writes of a PSET: `k` new values and the other old ones. -/
theorem readParams_afterWrites_pset (s : State) (d rev n w h : Nat) {k : Nat} (hk : k ≤ 5) :
    readParams (afterWrites s ((psetWrites d rev n w h).take k)) =
      ⟨if 1 ≤ k then d else s.pDelay, if 2 ≤ k then decide (rev = 1) else s.pRev,
        if 3 ≤ k then n else s.pRep, if 4 ≤ k then w else s.pWet, if 5 ≤ k then h else s.pShim⟩ := by
  interval_cases k <;> rfl

/-- Settles O8: the state after `k` of the five writes is `afterWrites`, and LATCH takes its registers. -/
theorem psetLatchesMixedSnapshot : Obligations.PsetLatchesMixedSnapshot := by
  refine ⟨fun _ _ _ _ _ => rfl, by decide, ?_⟩
  intro s d rev n w h k hlo hhi hrev hn hw hh hk
  have hlegal := psetWrites_legal ⟨hlo, hhi⟩ hrev hn hw hh
  refine ⟨afterWrites s ((psetWrites d rev n w h).take k), ?completes, ?latches, afterWrites_frame s _⟩
  case completes =>
    rw [psetInstrs_eq_map, ← List.map_take]
    exact runInstrs_writes fun p hp => hlegal p (List.mem_of_mem_take hp)
  case latches =>
    rw [← readParams_afterWrites_pset s d rev n w h hk]
    exact latchTakesSnapshot _

end Sys2Proof.Machine

/-! Exceptions and events (`spec/60_exceptions.md`): which of coinciding events a step takes, and that under the
invariant and the host contract every step completes. -/

namespace Sys2Proof.Machine

open Sys2Proof

/-- A step runs the decoded word that `fetch` chose, in the state `fetch` hands out with it. -/
theorem step_of_fetch_word {s t : State} {tr : Transaction} {i : Instr} (hf : fetch s = .word tr t)
    (hd : decode t.cfg tr = .ok i) : step s = exec i t := by
  simp only [step, hf, hd]

/-- A step on a word can fault only where the operation it decodes to faults: a word with no instruction is
refused (R97). -/
theorem step_ne_fault_of_fetch_word {s t : State} {tr : Transaction} {f : Fault} (hf : fetch s = .word tr t)
    (hexec : ∀ i, decode t.cfg tr = .ok i → exec i t ≠ .fault f) : step s ≠ .fault f := by
  cases hd : decode t.cfg tr with
  | ok i => rw [step_of_fetch_word hf hd]; exact hexec i hd
  | error r => simp [step, hf, hd]

/-- A reset wins over whatever coincides with it (R206 item c). -/
theorem fetch_of_rst {s : State} {a : Arrival} {rest : List Turn} (ha : s.agenda = .ports a :: rest)
    (hr : a.rst = true) : fetch s = .word (.resetLine true) (withAgenda rest s) := by
  simp [fetch, ha, hr]

/-- Outside PHASE 1 an arrival without reset is served (R206 item a). -/
theorem fetch_of_ports {s : State} {a : Arrival} {rest : List Turn} (ha : s.agenda = .ports a :: rest)
    (hp : s.phase ≠ .latch) (hr : a.rst = false) : fetch s = portWord a rest s := by
  simp [fetch, ha, hr, hp]

/-- A tick and a write that coincide are taken in the order of the arrival's flag (R62, R206 item a). -/
theorem portWord_of_both {a : Arrival} {w v : Nat} (hc : a.cmd = some w) (ht : a.tick = some v)
    (rest : List Turn) (s : State) :
    portWord a rest s =
      if a.tickFirst then .word (.sample v) (withAgenda (.ports { a with tick := none } :: rest) s)
      else .word (.command w) (withAgenda (.ports { a with cmd := none } :: rest) s) := by
  simp only [portWord, hc, ht]

/-- Settles O51: the three cases of the choice of the next word. -/
theorem coincidingEventsOrdered : Obligations.CoincidingEventsOrdered := by
  intro s rest a w v i j hp ha hc ht hi hj
  refine ⟨fun hr => step_of_fetch_word (fetch_of_rst ha hr) rfl,
    fun hr hfirst => step_of_fetch_word ?tickFirst hj, fun hr hfirst => step_of_fetch_word ?writeFirst hi⟩
  case tickFirst => rw [fetch_of_ports ha hp hr, portWord_of_both hc ht, hfirst]; rfl
  case writeFirst => rw [fetch_of_ports ha hp hr, portWord_of_both hc ht, hfirst]; rfl

/-! Completion of the micro-steps: at its own phase each finds its registers written and its snapshot in range
(R34, U2). -/

section

variable {s : State} (hs : s.Inv)
include hs

theorem setReadIndex_completes (f : Nat → Nat → Nat → Nat) (hp : s.phase = .rdidx) :
    ∃ t, setReadIndex f s = .next t := by
  have hpres := presence_at hs.presence hp
  obtain ⟨p, hsnap⟩ : ∃ p, s.snap = some p := Option.isSome_iff_exists.1 hpres.snap
  obtain ⟨-, hdelay, -⟩ := hs.ranges.snap p hsnap
  exact ⟨_, setReadIndex_eq_next.2 ⟨p, hsnap, hdelay, rfl⟩⟩

/-- TAP falls through or adds a tap; the index it forms is a remainder, so it exists (R55, R141). -/
theorem execTap_completes (hp : s.phase = .tap) : ∃ t, execTap s = .next t := by
  have hpres := presence_at hs.presence hp
  obtain ⟨p, hsnap⟩ : ∃ p, s.snap = some p := Option.isSome_iff_exists.1 hpres.snap
  obtain ⟨r, hr⟩ : ∃ r, s.r = some r := Option.isSome_iff_exists.1 hpres.r
  obtain ⟨i, hi⟩ : ∃ i, s.ri = some i := Option.isSome_iff_exists.1 hpres.ri
  obtain ⟨a, ha⟩ : ∃ a, s.acc = some a := Option.isSome_iff_exists.1 hpres.acc
  obtain ⟨-, -, hrep, -⟩ := hs.ranges.snap p hsnap
  have hindex := echoIndex_lt i r p.delay (Nat.zero_lt_of_lt hs.legal.wc)
  rcases Nat.lt_or_ge p.rep r with hdone | hdue
  · exact ⟨_, execTap_eq_next.2 ⟨p, r, hsnap, hr, hrep, .inl ⟨hdone, rfl⟩⟩⟩
  · exact ⟨_, execTap_eq_next.2 ⟨p, r, hsnap, hr, hrep, .inr ⟨hdue, i, a, hi, ha, hindex, rfl⟩⟩⟩

/-- The micro-step of the state's own phase completes. -/
theorem microStep_completes {rev : Bool} {i : Instr} (hi : microStep rev s.phase = some i) :
    ∃ t, exec i s = .next t := by
  cases hp : s.phase <;> rw [hp] at hi <;>
    simp only [microStep, Option.some.injEq, reduceCtorEq] at hi <;> subst hi <;>
    have hpres := presence_at hs.presence hp
  case latch => exact ⟨_, rfl⟩
  case acq => exact ⟨_, rfl⟩
  case store =>
    obtain ⟨v, hv⟩ : ∃ v, s.x = some v := Option.isSome_iff_exists.1 hpres.x
    exact ⟨_, execStore_eq_next.2 ⟨v, hv, hs.legal.wc, rfl⟩⟩
  case rdidx => cases rev <;> exact setReadIndex_completes hs _ hp
  case seed =>
    obtain ⟨i, hi⟩ : ∃ i, s.ri = some i := Option.isSome_iff_exists.1 hpres.ri
    exact ⟨_, execSeed_eq_next.2 ⟨i, hi, hs.ranges.ri i hi, rfl⟩⟩
  case tap => exact execTap_completes hs hp
  case shim =>
    obtain ⟨a, ha⟩ : ∃ a, s.acc = some a := Option.isSome_iff_exists.1 hpres.acc
    obtain ⟨p, hsnap⟩ : ∃ p, s.snap = some p := Option.isSome_iff_exists.1 hpres.snap
    obtain ⟨-, -, -, -, hshim⟩ := hs.ranges.snap p hsnap
    exact ⟨_, execShim_eq_next.2 ⟨a, p, ha, hsnap, hshim, rfl⟩⟩
  case mix =>
    obtain ⟨v, hv⟩ : ∃ v, s.x = some v := Option.isSome_iff_exists.1 hpres.x
    obtain ⟨h, hh⟩ : ∃ h, s.sh = some h := Option.isSome_iff_exists.1 hpres.sh
    obtain ⟨p, hsnap⟩ : ∃ p, s.snap = some p := Option.isSome_iff_exists.1 hpres.snap
    obtain ⟨-, -, -, hwet, -⟩ := hs.ranges.snap p hsnap
    exact ⟨_, execMix_eq_next.2 ⟨v, h, p, hv, hh, hsnap, hwet, rfl⟩⟩
  case emit =>
    obtain ⟨m, hm⟩ : ∃ m, s.mixw = some m := Option.isSome_iff_exists.1 hpres.mixw
    exact ⟨_, execEmit_eq_next.2 ⟨m, hm, rfl⟩⟩
  case adv => exact ⟨_, rfl⟩

/-- A step that takes no word of an arrival completes: it passes an event, performs the micro-step of the phase
or resets (R185, R205). -/
theorem step_completes_or_takes_word :
    (∃ t, step s = .next t) ∨
    ∃ r a rest, s.agenda = .ports a :: rest ∧ a.rst = false ∧
      ((∃ w, a.cmd = some w ∧ fetch s = .word (.command w) (withAgenda r s)) ∨
       (∃ v, a.tick = some v ∧ fetch s = .word (.sample v) (withAgenda r s))) := by
  obtain ⟨r, hf | ⟨hp, hf⟩ | hf | ⟨a, rest, w, ha, hr, hw, hf⟩ | ⟨a, rest, v, ha, hr, hv, hf⟩⟩ := fetch_cases s
  · exact .inl ⟨_, by rw [step, hf]⟩
  · obtain ⟨rev, i, hi, hd⟩ := decode_seqWord hp
    rw [step_of_fetch_word hf hd]
    exact .inl (microStep_completes (withAgenda_inv hs r) hi)
  · exact .inl ⟨_, step_of_fetch_word hf rfl⟩
  · exact .inr ⟨r, a, rest, ha, hr, .inl ⟨w, hw, hf⟩⟩
  · exact .inr ⟨r, a, rest, ha, hr, .inr ⟨v, hv, hf⟩⟩

end

/-- In an idle legal state TICK completes, in either reading of R9. -/
theorem execTick_completes {s : State} (x : Nat) (h : s.Legal) (hidle : s.phase = .idle) :
    ∃ t, execTick x s = .next t := by
  cases hstepped : s.cfg.stepped
  · exact ⟨_, execTick_eq_next.2 ⟨hidle, .inr ⟨hstepped, runInvocation_start x h⟩⟩⟩
  · exact ⟨_, execTick_eq_next.2 ⟨hidle, .inl ⟨hstepped, rfl⟩⟩⟩

theorem execTick_ne_fault {s : State} (x : Nat) (f : Fault) (h : s.Legal) : execTick x s ≠ .fault f := by
  by_cases hidle : s.phase = .idle
  · obtain ⟨t, ht⟩ := execTick_completes x h hidle
    simp [ht]
  · simp [execTick, hidle]

/-- An illegal value is refused and faults nothing (R181, R201). -/
theorem writeParam_ne_fault (reg : ParamReg) (v : Nat) (s : State) (f : Fault) :
    writeParam reg v s ≠ .fault f := by
  unfold writeParam
  split <;> exact nofun

theorem decode_sample_eq_tick {c : Config} {v : Nat} {i : Instr} (h : decode c (.sample v) = .ok i) :
    i = .tick v := by
  rw [decode] at h
  split at h <;> cases h
  rfl

/-- The command words a conforming agent presents are the writes of legal values (R83, R193). -/
theorem decode_legal_command {c : Config} {w : Nat} (h : LegalWord c (.command w)) :
    ∃ reg v, decode c (.command w) = .ok (writeInstr reg v) ∧ paramLegal c reg v = true := by
  obtain ⟨i, hd, hlegal⟩ := h
  have hi : commandInstr (commandSel c w) (commandData c w) = i := by
    rw [decode] at hd
    split at hd <;> cases hd
    rfl
  subst hi
  rw [hd]
  unfold commandInstr at hlegal ⊢
  split at hlegal
  · exact ⟨.delay, _, rfl, hlegal⟩
  · exact ⟨.rev, _, rfl, hlegal⟩
  · exact ⟨.rep, _, rfl, hlegal⟩
  · exact ⟨.wet, _, rfl, hlegal⟩
  · exact ⟨.shim, _, rfl, hlegal⟩
  all_goals cases hlegal

/-- Settles O57: what the arrivals' words start faults in no legal state, and every other step completes. -/
theorem noFaultUnderInvariant : Obligations.NoFaultUnderInvariant := by
  intro s f hs
  rcases step_completes_or_takes_word hs with ⟨t, ht⟩ | ⟨r, a, rest, -, -, ⟨w, -, hf⟩ | ⟨v, -, hf⟩⟩
  · simp [ht]
  · refine step_ne_fault_of_fetch_word hf fun i hd => ?_
    rcases decode_command_cases hd with ⟨reg, v, hw⟩ | ⟨sel, hw⟩
    · rw [hw]; exact writeParam_ne_fault reg v _ f
    · simp [hw]
  · refine step_ne_fault_of_fetch_word hf fun i hd => ?_
    obtain rfl := decode_sample_eq_tick hd
    exact execTick_ne_fault v f (withAgenda_inv hs r).legal

/-- Settles O58: the contract makes a command word the write of a legal value, and a tick one of an idle state. -/
theorem contractStepsComplete : Obligations.ContractStepsComplete := by
  intro s hs hcontract
  rcases step_completes_or_takes_word hs with hnext | ⟨r, a, rest, ha, hr, ⟨w, hw, hf⟩ | ⟨v, hv, hf⟩⟩
  · exact hnext
  · obtain ⟨hcommand, -⟩ := hcontract a rest ha hr
    obtain ⟨reg, v, hd, hlegal⟩ := decode_legal_command (hcommand w hw)
    exact ⟨_, (step_of_fetch_word hf hd).trans (exec_writeInstr_of_legal hlegal)⟩
  · obtain ⟨-, htick⟩ := hcontract a rest ha hr
    obtain ⟨⟨i, hd, -⟩, hidle⟩ := htick v hv
    obtain rfl := decode_sample_eq_tick hd
    rw [step_of_fetch_word hf hd]
    exact execTick_completes v (withAgenda_inv hs r).legal hidle

end Sys2Proof.Machine

/-! The buffer as it was before the first of a run of invocations, and the outputs (`spec/70_reset_and_hazards.md`
R236, `spec/20_memory.md` R22). -/

namespace Sys2Proof.Machine

open Sys2Proof

/-- Once `N - 1` inputs have come, the delayed sample is a function of the inputs and the parameters (R58). -/
theorem delayedSample_afterTicks_of_filled {s : State} {xs : List Nat} {x : Nat} (h : s.Ready)
    (hxs : ∀ y ∈ xs, y ≤ s.cfg.fs) (hx : x ≤ s.cfg.fs) (hfilled : s.cfg.capacity - 1 ≤ xs.length) :
    delayedSample (afterTicks s xs) x = (xs ++ [x]).getD (xs.length - s.pDelay) 0 +
      ((List.range s.pRep).map fun q => echoScale s.cfg
        ((xs ++ [x]).getD (xs.length - tapLag s.cfg.capacity s.pDelay (q + 1)) 0)).sum := by
  obtain ⟨t, hrun, hsample⟩ := echoesFollowInputHistory xs x s h hxs hx hfilled
  obtain rfl : afterTicks s xs = t := next_eq_next.1 (hrun.symm.trans (runTicks_of_ready h hxs).1)
  exact hsample

/-- Beside the delayed sample, the output reads the input, the configuration and two coefficients (R110). -/
theorem tickOutput_congr {s u : State} {x : Nat} (hcfg : u.cfg = s.cfg) (hwet : u.pWet = s.pWet)
    (hshim : u.pShim = s.pShim) (hsample : delayedSample u x = delayedSample s x) :
    tickOutput u x = tickOutput s x := by
  rw [tickOutput, tickOutput, hcfg, hwet, hshim, hsample]

section

variable {s : State} {b : Memory} {d : Nat} {xs : List Nat} (h : s.Ready)
  (hb : State.Ready { s with buf := b, draw := d }) (hxs : ∀ x ∈ xs, x ≤ s.cfg.fs)
include h hb hxs

/-- Once `N - 1` inputs have come, an invocation's output does not depend on the initial buffer (R236). -/
theorem tickOutput_afterTicks_forgets_buffer {x : Nat} (hx : x ≤ s.cfg.fs)
    (hfilled : s.cfg.capacity - 1 ≤ xs.length) :
    tickOutput (afterTicks { s with buf := b, draw := d } xs) x = tickOutput (afterTicks s xs) x := by
  refine tickOutput_congr (by simp) (by simp) (by simp) ?_
  rw [delayedSample_afterTicks_of_filled h hxs hx hfilled,
    delayedSample_afterTicks_of_filled hb hxs hx hfilled]

/-- From the `N`-th on, the outputs of a run do not depend on the initial buffer (R236). -/
theorem outputs_afterTicks_forget_buffer {k : Nat} (hfilled : s.cfg.capacity - 1 ≤ k) :
    (outputs (afterTicks { s with buf := b, draw := d } xs))[s.emitted.length + k]? =
      (outputs (afterTicks s xs))[s.emitted.length + k]? := by
  obtain hk | hk := Nat.lt_or_ge k xs.length
  · have htake : ∀ x ∈ xs.take k, x ≤ s.cfg.fs := fun x hx => hxs x (List.mem_of_mem_take hx)
    have hlen : (xs.take k).length = k := List.length_take_of_le hk.le
    rw [outputs_afterTicks_getElem? s hk, outputs_afterTicks_getElem? { s with buf := b, draw := d } hk,
      tickOutput_afterTicks_forgets_buffer h hb htake (hxs _ (List.getElem_mem hk)) (by omega)]
  · have hend (u : State) (hu : u.emitted = s.emitted) :
        (outputs (afterTicks u xs))[s.emitted.length + k]? = none :=
      List.getElem?_eq_none (by rw [outputs_afterTicks_length, hu]; omega)
    exact (hend { s with buf := b, draw := d } rfl).trans (hend s rfl).symm

end

/-- Settles O44: both runs are in closed form, and their outputs from the `N`-th on agree one by one. -/
theorem outputsForgetInitialBuffer : Obligations.OutputsForgetInitialBuffer := by
  intro xs s u h hlegal hu hxs
  generalize u.buf = b at hu
  generalize u.draw = d at hu
  subst hu
  have hb : State.Ready { s with buf := b, draw := d } := ⟨hlegal, h.idle, h.atomic⟩
  refine ⟨afterTicks s xs, _, (runTicks_of_ready h hxs).1, (runTicks_of_ready hb hxs).1, ?_⟩
  refine List.ext_getElem? fun i => ?_
  rw [List.getElem?_drop, List.getElem?_drop, Nat.add_assoc]
  exact (outputs_afterTicks_forget_buffer h hb hxs (Nat.le_add_right _ i)).symm

end Sys2Proof.Machine

/-! What a step does with each kind of event, and the placing of a table row's word (`spec/30_encoding.md` R85,
R97, `spec/20_memory.md` R61, `spec/60_exceptions.md` R205). -/

namespace Sys2Proof.Machine

open Sys2Proof

/-! The choice of the next operation, event by event. -/

theorem engineMove_of_idle {s : State} (h : s.phase = .idle) : engineMove s = .nothing s := if_pos h

theorem engineMove_of_busy {s : State} (h : s.phase ≠ .idle) :
    engineMove s = .word (.sequencer (seqWord s)) s := if_neg h

theorem fetch_of_no_event {s : State} (ha : s.agenda = []) : fetch s = engineMove s := by
  rw [fetch, ha]

theorem fetch_of_engine {s : State} {rest : List Turn} (ha : s.agenda = .engine :: rest) :
    fetch s = engineMove (withAgenda rest s) := by
  rw [fetch, ha]

/-- At PHASE 1 an arrival without reset waits (log 9). -/
theorem fetch_of_ports_at_latch {s : State} {a : Arrival} {rest : List Turn}
    (ha : s.agenda = .ports a :: rest) (hp : s.phase = .latch) (hr : a.rst = false) :
    fetch s = engineMove s := by
  simp [fetch, ha, hr, hp]

/-! The step on a port's word. -/

section

variable {s : State} {rest : List Turn} {w : Nat} {b : Bool} {i : Instr}

theorem step_of_sample (hp : s.phase ≠ .latch) (ha : s.agenda = .ports ⟨false, none, some w, b⟩ :: rest)
    (hd : decode s.cfg (.sample w) = .ok i) : step s = exec i (withAgenda rest s) :=
  step_of_fetch_word (fetch_of_ports ha hp rfl) hd

theorem step_of_command (hp : s.phase ≠ .latch) (ha : s.agenda = .ports ⟨false, some w, none, b⟩ :: rest)
    (hd : decode s.cfg (.command w) = .ok i) : step s = exec i (withAgenda rest s) :=
  step_of_fetch_word (fetch_of_ports ha hp rfl) hd

theorem step_of_rst {a : Arrival} (ha : s.agenda = .ports a :: rest) (hr : a.rst = true) :
    step s = exec .reset (withAgenda rest s) :=
  step_of_fetch_word (fetch_of_rst ha hr) rfl

/-! The step on the sequencer word, in an invocation in progress. -/

theorem step_of_no_event (hp : s.phase ≠ .idle) (hd : decode s.cfg (.sequencer (seqWord s)) = .ok i)
    (ha : s.agenda = []) : step s = exec i s :=
  step_of_fetch_word ((fetch_of_no_event ha).trans (engineMove_of_busy hp)) hd

theorem step_of_engine (hp : s.phase ≠ .idle) (hd : decode s.cfg (.sequencer (seqWord s)) = .ok i)
    (ha : s.agenda = .engine :: rest) : step s = exec i (withAgenda rest s) :=
  step_of_fetch_word ((fetch_of_engine ha).trans (engineMove_of_busy hp)) hd

end

/-- A state's sequencer word decodes to the micro-step of the latched mode and the phase (R85, R88). -/
theorem decode_seqWord_eq {s : State} {i : Instr} (c : Config)
    (hi : microStep (latchedRev s) s.phase = some i) : decode c (.sequencer (seqWord s)) = .ok i := by
  rw [seqWord_eq]
  exact decodeSequencer_seqWordOf _ _ _ hi

/-! A word placed before all other events (log 15). -/

/-- A port's word that decodes is the next step's when its arrival stands first outside PHASE 1. -/
theorem step_of_arrivalOf {s : State} {rest : List Turn} {tr : Transaction} {i : Instr}
    (hseq : ∀ q, tr ≠ .sequencer q) (hp : s.phase ≠ .latch) (ha : s.agenda = arrivalOf tr :: rest)
    (hd : decode s.cfg tr = .ok i) : step s = exec i (withAgenda rest s) := by
  cases tr with
  | sample w => exact step_of_sample hp ha hd
  | command w => exact step_of_command hp ha hd
  | resetLine asserted =>
    cases asserted
    case false => cases hd
    case true => cases hd; exact step_of_rst ha rfl
  | sequencer q => exact absurd rfl (hseq q)

theorem placePortWord_runs {s : State} {tr : Transaction} {i : Instr} (hseq : ∀ q, tr ≠ .sequencer q)
    (hd : decode s.cfg tr = .ok i) : ∃ u, step (placePortWord tr s) = exec i u ∧ s.SamePersistent u := by
  unfold placePortWord
  split
  case isTrue =>
    exact ⟨{ clearWork s with phase := .idle }, step_of_arrivalOf hseq nofun rfl hd, by constructor <;> rfl⟩
  case isFalse hp => exact ⟨s, step_of_arrivalOf hseq hp rfl hd, by constructor <;> rfl⟩

/-- From ACQ on the placed snapshot holds the mode of the word, and LATCH does not read it. -/
theorem microStep_placeMicroStep (rev : Bool) (p : Phase) (s : State) :
    microStep (latchedRev (placeMicroStep rev p s)) p = microStep rev p := by
  cases p <;> rfl

theorem placeMicroStep_runs {rev : Bool} {p : Phase} {i : Instr} (s : State) (hi : microStep rev p = some i) :
    ∃ u, step (placeMicroStep rev p s) = exec i u ∧ s.SamePersistent u := by
  have hp : p ≠ .idle := (microStep_isSome rev p).1 (Option.isSome_of_eq_some hi)
  have hd : decode s.cfg (.sequencer (seqWord (placeMicroStep rev p s))) = .ok i :=
    decode_seqWord_eq _ ((microStep_placeMicroStep rev p s).trans hi)
  exact ⟨withAgenda s.agenda (placeMicroStep rev p s), step_of_engine hp hd rfl, by constructor <;> rfl⟩

/-- A sequencer word that decodes names a phase and is the word of that phase's micro-step (R85, R92). -/
theorem decodeSequencer_eq_ok {q : SeqWord} {i : Instr} (h : decodeSequencer q = .ok i) :
    ∃ p, phaseOfCode (seqPhaseCode q) = some p ∧ microStep (seqRev q) p = some i := by
  unfold decodeSequencer at h
  split at h
  case h_1 => cases h
  case h_2 p hp =>
    split at h
    case h_1 => cases h
    case h_2 hstep => cases h; exact ⟨p, hp, hstep⟩

theorem placeWord_sequencer {q : SeqWord} {p : Phase} (s : State) (hq : phaseOfCode (seqPhaseCode q) = some p)
    (hp : p ≠ .idle) : placeWord (.sequencer q) s = placeMicroStep (seqRev q) p s := by
  cases p
  case idle => exact absurd rfl hp
  all_goals simp only [placeWord, hq]

theorem placeWord_runs {s : State} {tr : Transaction} {i : Instr} (hd : decode s.cfg tr = .ok i) :
    ∃ u, step (placeWord tr s) = exec i u ∧ s.SamePersistent u := by
  cases tr with
  | sample w => exact placePortWord_runs nofun hd
  | command w => exact placePortWord_runs nofun hd
  | resetLine asserted => exact placePortWord_runs nofun hd
  | sequencer q =>
    obtain ⟨p, hq, hi⟩ := decodeSequencer_eq_ok hd
    have hp : p ≠ .idle := (microStep_isSome _ p).1 (Option.isSome_of_eq_some hi)
    rw [placeWord_sequencer s hq hp]
    exact placeMicroStep_runs s hi

/-- Settles O54: the placed word is a port's arrival or ENGINE's turn, and either stands first. -/
theorem placedWordRunsNext : Obligations.PlacedWordRunsNext := by
  intro s nbits w tr i htr hd
  rw [State.withFetchWord, htr]
  exact placeWord_runs hd

/-! The fields of the sequencer word (R85). -/

theorem seqWordOf_toNat (rev : Bool) (p : Phase) :
    (seqWordOf rev p).toNat = (if rev then 16 else 0) + p.code := by
  cases rev <;> cases p <;> rfl

theorem phase_code_lt (p : Phase) : p.code < 16 := by cases p <;> decide

/-- Settles O50: the lemma of each kind of event, and the word's two fields. -/
theorem stepRunsDecodedOperation : Obligations.StepRunsDecodedOperation := by
  refine ⟨fun s rest w b i => step_of_sample, fun s rest w b i => step_of_command,
    fun s rest a => step_of_rst, fun s rest i hp hd => ⟨step_of_no_event hp hd, step_of_engine hp hd⟩,
    fun s => ?fields⟩
  case fields =>
    have hcode := phase_code_lt s.phase
    rw [seqWord_eq, seqWordOf_toNat]
    refine ⟨by split <;> omega, fun p hp => ?_⟩
    have hrev : latchedRev s = p.rev := by rw [latchedRev, hp]; rfl
    rw [hrev]
    split <;> omega

/-- Settles O52: the arrival waits, and the micro-step of PHASE 1 is LATCH in either mode. -/
theorem latchPrecedesPorts : Obligations.LatchPrecedesPorts := by
  intro s rest a hp ha hr
  have hbusy : s.phase ≠ .idle := by rw [hp]; nofun
  have hlatch : microStep (latchedRev s) s.phase = some .latch := by rw [hp]; rfl
  exact step_of_fetch_word ((fetch_of_ports_at_latch ha hp hr).trans (engineMove_of_busy hbusy))
    (decode_seqWord_eq _ hlatch)

theorem step_of_fetch_nothing {s t : State} (h : fetch s = .nothing t) : step s = .next t := by
  rw [step, h]

/-- Settles O53: an idle ENGINE has no move. -/
theorem idleMachineHolds : Obligations.IdleMachineHolds := fun s rest hidle =>
  ⟨fun ha => step_of_fetch_nothing ((fetch_of_no_event ha).trans (engineMove_of_idle hidle)),
    fun ha => step_of_fetch_nothing
      ((fetch_of_engine ha).trans (engineMove_of_idle (s := withAgenda rest s) hidle))⟩

end Sys2Proof.Machine

/-! The reset values, the input of an acquisition, and where the micro-steps stop: registers without a value and
snapshots out of range (`spec/10_state.md` R34, R42, `spec/40_cycle_and_indexing.md` R112,
`spec/93_implementation_defined.md` U2). -/

namespace Sys2Proof.Machine

open Sys2Proof

/-- An entry not written since reset reads as its free value (R22). -/
theorem entry_of_buf_nil {s : State} (h : s.buf = []) (i : Nat) : entry s i = freeSample s.cfg s.draw i := by
  rw [entry, h]
  rfl

/-- Settles O11: RESET answers `resetState`, register by register, whose buffer holds free values only. -/
theorem resetGivesResetState : Obligations.ResetGivesResetState := by
  intro s
  refine ⟨resetState s, rfl, fun i => ?entries, by simp⟩
  case entries =>
    rw [entry_of_buf_nil rfl]
    exact ⟨rfl, freeSample_le _ _ _⟩

/-- Settles O12: `resetState` reads the configuration, the draw, the agenda and the trace only. -/
theorem resetTwiceIsResetOnce : Obligations.ResetTwiceIsResetOnce := by
  intro s t u ht hu
  obtain rfl := execReset_eq_next.1 ht
  obtain rfl := execReset_eq_next.1 hu
  rfl

/-- Settles O13: the entries are free values, and every register is written out in `State.resetWith`. -/
theorem powerOnStateHoldsResetValues : Obligations.PowerOnStateHoldsResetValues := by
  refine ⟨rfl, rfl, fun i => ?entries, rfl, rfl, rfl, rfl, rfl, rfl, rfl, rfl, rfl, rfl⟩
  case entries =>
    rw [entry_of_buf_nil rfl]
    exact freeSample_le Config.defaults 0 i

/-- Where there is no transaction the input is the free value of the port (log 13). -/
theorem sampleInput_of_none {s : State} (h : s.sampleIn = none) :
    sampleInput s = Config.freeInput s.draw s.emitted.length % 2 ^ s.cfg.sampleW := by
  rw [sampleInput, h]

/-- Settles O15: ACQ takes `sampleInput`, with a transaction and without. -/
theorem acquireTakesInput : Obligations.AcquireTakesInput := fun s =>
  ⟨sampleInput s, execAcq_eq_next.2 rfl, fun _ => sampleInput_of_some, fun hnone =>
    ⟨sampleInput_of_none hnone, sampleInput_le fun v hv => by simp [hnone] at hv⟩⟩

/-- Settles O22: the two cases of what TAP answers; the index is a remainder, so the access is made. -/
theorem tapAddsOneEcho : Obligations.TapAddsOneEcho := by
  intro s p r hp hr hrep
  exact ⟨fun hlt => execTap_eq_next.2 ⟨p, r, hp, hr, hrep, .inl ⟨hlt, rfl⟩⟩,
    fun i a hdue hi ha hpos => execTap_eq_next.2
      ⟨p, r, hp, hr, hrep, .inr ⟨hdue, i, a, hi, ha, echoIndex_lt i r p.delay hpos, rfl⟩⟩,
    echoScale_of_table_nil⟩

/-! Reading a register that holds no value, and one that does (R34). -/

@[simp] theorem need_none {α : Type} (w : WorkReg) (k : α → StepResult) :
    need w none k = .fault (.noValue w) := rfl

theorem need_of_none {α : Type} {w : WorkReg} {v : Option α} {k : α → StepResult} (h : v = none) :
    need w v k = .fault (.noValue w) := by
  rw [h, need_none]

theorem need_of_some {α : Type} {w : WorkReg} {v : Option α} {a : α} {k : α → StepResult} (h : v = some a) :
    need w v k = k a := by
  rw [h, need_some]

/-- While a tap is due TAP performs it (R141). -/
theorem execTap_of_due {s : State} {p : Snapshot} {r : Nat} (hp : s.snap = some p) (hr : s.r = some r)
    (hrep : p.rep ≤ 5) (hdue : r ≤ p.rep) : execTap s = performTap p r s := by
  rw [execTap, need_of_some hp, need_of_some hr, if_pos ((repDefined_iff _).2 hrep),
    if_pos ((tapDue_iff _ _).2 hdue)]

/-! A snapshot outside its range (U2). -/

section

variable {s : State} {p : Snapshot} (hp : s.snap = some p)
include hp

theorem setReadIndex_refuses {f : Nat → Nat → Nat → Nat} (hd : s.cfg.capacity ≤ p.delay) :
    setReadIndex f s = .refused (.illegalParameter .delay p.delay) := by
  rw [setReadIndex, need_of_some hp, if_neg (mt (delayDefined_iff _ _).1 (Nat.not_lt.2 hd))]

theorem execTap_refuses {r : Nat} (hr : s.r = some r) (hn : 5 < p.rep) :
    execTap s = .refused (.illegalParameter .rep p.rep) := by
  rw [execTap, need_of_some hp, need_of_some hr, if_neg (mt (repDefined_iff _).1 (Nat.not_le.2 hn))]

theorem execShim_refuses {a : Nat} (ha : s.acc = some a) (hk : s.cfg.one < p.shim) :
    execShim s = .refused (.illegalParameter .shim p.shim) := by
  rw [execShim, need_of_some ha, need_of_some hp, if_neg (mt (coefDefined_iff _ _).1 (Nat.not_le.2 hk))]

theorem execMix_refuses {v h : Nat} (hv : s.x = some v) (hh : s.sh = some h) (hk : s.cfg.one < p.wet) :
    execMix s = .refused (.illegalParameter .wet p.wet) := by
  rw [execMix, need_of_some hv, need_of_some hh, need_of_some hp,
    if_neg (mt (coefDefined_iff _ _).1 (Nat.not_le.2 hk))]

end

/-- Settles O19, micro-step by micro-step. -/
theorem undefinedSnapshotsRefused : Obligations.UndefinedSnapshotsRefused := fun _ _ hp =>
  ⟨fun hd => ⟨setReadIndex_refuses hp hd, setReadIndex_refuses hp hd⟩, fun hn _ hr => execTap_refuses hp hr hn,
    fun hk _ ha => execShim_refuses hp ha hk, fun hk _ _ hv hh => execMix_refuses hp hv hh hk⟩

/-- Settles O27: each micro-step in the order in which it reads its registers. -/
theorem unwrittenRegistersFault : Obligations.UnwrittenRegistersFault := by
  intro s
  refine ⟨need_of_none, fun h => ⟨need_of_none h, need_of_none h⟩, need_of_none, need_of_none,
    fun p hp => ⟨fun hr => ?tapR, fun r hr hdue hrep => ⟨fun hi => ?tapRi, fun hi ha => ?tapAcc⟩⟩,
    need_of_none, fun ha hp => ?shimSnap, need_of_none, fun hx hh => ?mixSh, fun hx hh hp => ?mixSnap,
    need_of_none⟩
  case tapR => rw [exec, execTap, need_of_some hp, need_of_none hr]
  case tapRi => rw [exec, execTap_of_due hp hr hrep hdue, performTap, need_of_none hi]
  case tapAcc =>
    obtain ⟨i, hi⟩ := Option.ne_none_iff_exists'.1 hi
    rw [exec, execTap_of_due hp hr hrep hdue, performTap, need_of_some hi, need_of_none ha]
  case shimSnap =>
    obtain ⟨a, ha⟩ := Option.ne_none_iff_exists'.1 ha
    rw [exec, execShim, need_of_some ha, need_of_none hp]
  case mixSh =>
    obtain ⟨v, hx⟩ := Option.ne_none_iff_exists'.1 hx
    rw [exec, execMix, need_of_some hx, need_of_none hh]
  case mixSnap =>
    obtain ⟨v, hx⟩ := Option.ne_none_iff_exists'.1 hx
    obtain ⟨w, hh⟩ := Option.ne_none_iff_exists'.1 hh
    rw [exec, execMix, need_of_some hx, need_of_some hh, need_of_none hp]

end Sys2Proof.Machine
